-- ==== Sys2Proof/Word.lean ====
section
/-! DEFINITION. The widths of the unit: words, addresses, lengths, immediates and command words
(00_scope.md R6, R7; 30_encoding.md R61, R62). -/

namespace Sys2Proof

/-- A word: 32 bits, two's complement (00_scope.md R7). `BitVec.toInt` is its signed value. -/
abbrev Word := BitVec 32

/-- A word address of PMEM: 13 bits, unsigned (30_encoding.md R62). -/
abbrev Addr := BitVec 13

/-- The `len` field: 14 bits, unsigned (30_encoding.md R62). -/
abbrev Len := BitVec 14

/-- The immediate field of format `I`: 16 bits, read as signed (30_encoding.md R64). -/
abbrev Imm := BitVec 16

/-- A command word: 64 bits (30_encoding.md R61). -/
abbrev Command := BitVec 64

/-- `wrap32`: the word congruent to an integer modulo 2^32 (00_scope.md R7). -/
abbrev wrap32 (v : Int) : Word := BitVec.ofInt 32 v

end Sys2Proof
end

