-- ==== Sys2Proof/Config.lean ====
section
/-! DEFINITION. The fixed constants of the unit (00_scope.md R6) and its free values
(00_scope.md R12, 93_implementation_defined.md U1, U2, U4). -/

namespace Sys2Proof.Config

/-- `Q`, the prime modulus (00_scope.md R6). -/
abbrev q : Int := 9829

/-- `RBOUND`: `reduce` is defined strictly between `-RBOUND` and `RBOUND` (00_scope.md R6). -/
abbrev rbound : Int := 165191050

/-- `PMEM_WORDS`, the number of words of operand memory (00_scope.md R6). -/
abbrev pmemWords : Nat := 8192

/-- `N`, the operand length of the top-level multiplier (00_scope.md R6). -/
abbrev n : Nat := 768

/-- `NOUT`, the result length of the top-level multiplier (00_scope.md R6). -/
abbrev nout : Nat := 1536

/-- `NB`, the number of blocks of an operand (00_scope.md R6). -/
abbrev nb : Nat := 6

/-- `BL`, the block length (00_scope.md R6). -/
abbrev bl : Nat := 128

/-- `NPTS`, the number of evaluation points (00_scope.md R6). -/
abbrev npts : Nat := 11

/-- `KBASE`, the operand length of the base multiplier (00_scope.md R6). -/
abbrev kbase : Nat := 4

/-- The free words of UNSPEC results (00_scope.md R12): the word drawn at occasion `draw` for the
`index`-th UNSPEC position of that occasion. It has no body: nothing can be proved of its value.
Log 5. -/
opaque unspec (draw index : Nat) : Word

/-- The free contents of PMEM after a reset (10_state.md R31, 93_implementation_defined.md U4): the
word that word address `addr` holds after reset number `reset` until something writes it. It has no
body: nothing can be proved of its value. Log 4. -/
opaque resetWord (reset addr : Nat) : Word

end Sys2Proof.Config
end

