-- ==== Sys2Proof/Syntax.lean ====
section
/-! DEFINITION. The seventeen commands and their fields (30_encoding.md R61 to R66), the seven
formats, and the three command errors (60_exceptions.md R211). -/

namespace Sys2Proof

/-- The mnemonics of the opcode map, in its order (30_encoding.md R66). -/
inductive Op where
  | frz | vfrz | vzero | vcopy | vadd | vacc | vsmul
  | conv4 | kmul8 | kmul16 | kmul32 | kmul64 | kmul128
  | t6eval | t6interp | t6recon | mul768
  deriving DecidableEq, Repr

/-- The seven command formats (30_encoding.md R63). -/
inductive Format where
  /-- Uses `dst`, `src1` (`FRZ`). -/
  | S
  /-- Uses `dst`, `len`. -/
  | Z
  /-- Uses `dst`, `src1`, `len`. -/
  | U
  /-- Uses `dst`, `src1`, `src2`, `len`. -/
  | B
  /-- Uses `dst`, `src1`, `imm16`, `len`. -/
  | I
  /-- Uses `dst`, `src1`, `src2`. -/
  | M
  /-- Uses `dst`, `src1` (the Toom-6 stages). -/
  | T
  deriving DecidableEq, Repr

/-- The commands, one constructor per row of the opcode map, with the fields their format uses
(30_encoding.md R63, R66). -/
inductive Instr where
  /-- Reduce one word (40_reduction.md R96). -/
  | frz (dst src1 : Addr)
  /-- Canonicalize a buffer in place (40_reduction.md R97). -/
  | vfrz (dst : Addr) (len : Len)
  /-- Zero a buffer (41_primitives.md R111). -/
  | vzero (dst : Addr) (len : Len)
  /-- Copy a buffer (41_primitives.md R112). -/
  | vcopy (dst src1 : Addr) (len : Len)
  /-- Add two buffers, canonicalizing (41_primitives.md R113). -/
  | vadd (dst src1 src2 : Addr) (len : Len)
  /-- Accumulate a buffer, not canonicalizing (41_primitives.md R114). -/
  | vacc (dst src1 : Addr) (len : Len)
  /-- Multiply a buffer by a constant, canonicalizing (41_primitives.md R115). -/
  | vsmul (dst src1 : Addr) (imm : Imm) (len : Len)
  /-- The 4 by 4 schoolbook convolver (42_schoolbook.md R131). -/
  | conv4 (dst src1 src2 : Addr)
  /-- Karatsuba level 1 (43_karatsuba.md R145). -/
  | kmul8 (dst src1 src2 : Addr)
  /-- Karatsuba level 2 (43_karatsuba.md R146). -/
  | kmul16 (dst src1 src2 : Addr)
  /-- Karatsuba level 3 (43_karatsuba.md R147). -/
  | kmul32 (dst src1 src2 : Addr)
  /-- Karatsuba level 4 (43_karatsuba.md R148). -/
  | kmul64 (dst src1 src2 : Addr)
  /-- Karatsuba level 5 (43_karatsuba.md R149). -/
  | kmul128 (dst src1 src2 : Addr)
  /-- The Toom-6 evaluator (44_toom6_eval.md R165). -/
  | t6eval (dst src1 src2 : Addr)
  /-- The Toom-6 interpolator (45_toom6_interp.md R183). -/
  | t6interp (dst src1 : Addr)
  /-- The Toom-6 overlap-add reconstruction (45_toom6_interp.md R186). -/
  | t6recon (dst src1 : Addr)
  /-- The top-level multiplier (46_top.md R201). -/
  | mul768 (dst src1 src2 : Addr)
  deriving DecidableEq, Repr

/-- The three command errors (60_exceptions.md R211). -/
inductive CmdError where
  /-- The opcode is none of the seventeen (30_encoding.md R71). -/
  | illegalOpcode
  /-- A reserved bit of the opcode's format is 1 (30_encoding.md R73). -/
  | reservedField
  /-- `len` is 0 where the format uses it, or an operand range ends above word 8191
  (30_encoding.md R72). -/
  | badRange
  deriving DecidableEq, Repr

end Sys2Proof
end

