-- ==== Sys2Proof/Machine/Operands.lean ====
section
/-! DEFINITION. How a command names its operands: the operand ranges and their sizes
(20_memory.md R46; 30_encoding.md R66), the range check (30_encoding.md R72), the immediate
(30_encoding.md R64), and the elements of a sequence (00_scope.md R9). -/

namespace Sys2Proof.Machine

/-- A range of PMEM words, `[base, base + size)` (20_memory.md R46). -/
structure Range where
  base : Nat
  size : Nat
  deriving DecidableEq, Repr

/-- Whether a word address lies in a range. -/
abbrev inRange (r : Range) (a : Nat) : Prop := r.base ≤ a ∧ a < r.base + r.size

/-- The destination range of a command (30_encoding.md R66, "dst size"). -/
def dstRange : Instr → Range
  | .frz d _ => ⟨d.toNat, 1⟩
  | .vfrz d n => ⟨d.toNat, n.toNat⟩
  | .vzero d n => ⟨d.toNat, n.toNat⟩
  | .vcopy d _ n => ⟨d.toNat, n.toNat⟩
  | .vadd d _ _ n => ⟨d.toNat, n.toNat⟩
  | .vacc d _ n => ⟨d.toNat, n.toNat⟩
  | .vsmul d _ _ n => ⟨d.toNat, n.toNat⟩
  | .conv4 d _ _ => ⟨d.toNat, 8⟩
  | .kmul8 d _ _ => ⟨d.toNat, 16⟩
  | .kmul16 d _ _ => ⟨d.toNat, 32⟩
  | .kmul32 d _ _ => ⟨d.toNat, 64⟩
  | .kmul64 d _ _ => ⟨d.toNat, 128⟩
  | .kmul128 d _ _ => ⟨d.toNat, 256⟩
  | .t6eval d _ _ => ⟨d.toNat, 2816⟩
  | .t6interp d _ => ⟨d.toNat, 2816⟩
  | .t6recon d _ => ⟨d.toNat, 1536⟩
  | .mul768 d _ _ => ⟨d.toNat, 1536⟩

/-- The source ranges of a command, source 1 then source 2 (30_encoding.md R66, "src1 size" and
"src2 size"). -/
def srcRanges : Instr → List Range
  | .frz _ a => [⟨a.toNat, 1⟩]
  | .vfrz _ _ => []
  | .vzero _ _ => []
  | .vcopy _ a n => [⟨a.toNat, n.toNat⟩]
  | .vadd _ a b n => [⟨a.toNat, n.toNat⟩, ⟨b.toNat, n.toNat⟩]
  | .vacc _ a n => [⟨a.toNat, n.toNat⟩]
  | .vsmul _ a _ n => [⟨a.toNat, n.toNat⟩]
  | .conv4 _ a b => [⟨a.toNat, 4⟩, ⟨b.toNat, 4⟩]
  | .kmul8 _ a b => [⟨a.toNat, 8⟩, ⟨b.toNat, 8⟩]
  | .kmul16 _ a b => [⟨a.toNat, 16⟩, ⟨b.toNat, 16⟩]
  | .kmul32 _ a b => [⟨a.toNat, 32⟩, ⟨b.toNat, 32⟩]
  | .kmul64 _ a b => [⟨a.toNat, 64⟩, ⟨b.toNat, 64⟩]
  | .kmul128 _ a b => [⟨a.toNat, 128⟩, ⟨b.toNat, 128⟩]
  | .t6eval _ a b => [⟨a.toNat, 768⟩, ⟨b.toNat, 768⟩]
  | .t6interp _ a => [⟨a.toNat, 2816⟩]
  | .t6recon _ a => [⟨a.toNat, 2816⟩]
  | .mul768 _ a b => [⟨a.toNat, 768⟩, ⟨b.toNat, 768⟩]

/-- Whether the destination is read as well as written ("r/w" in 30_encoding.md R66). -/
def readsDst : Instr → Bool
  | .vfrz _ _ => true
  | .vacc _ _ _ => true
  | _ => false

/-- Every range a command reads. It depends on the command alone, never on data
(20_memory.md R46; 70_reset_and_hazards.md R245). -/
def readRanges (i : Instr) : List Range :=
  if readsDst i then dstRange i :: srcRanges i else srcRanges i

/-- Part (a) of the range check: the `len` of a format that uses it is not 0 (30_encoding.md R72). -/
def lenOk : Instr → Bool
  | .vfrz _ n => n ≠ 0
  | .vzero _ n => n ≠ 0
  | .vcopy _ _ n => n ≠ 0
  | .vadd _ _ _ n => n ≠ 0
  | .vacc _ _ n => n ≠ 0
  | .vsmul _ _ _ n => n ≠ 0
  | _ => true

/-- The range check: `len` is not 0 where it is used, and no operand range ends above word 8191.
The sums are not taken modulo 2^13 (30_encoding.md R72). -/
def rangesOk (i : Instr) : Bool :=
  lenOk i && (dstRange i :: srcRanges i).all fun r => r.base + r.size ≤ Config.pmemWords

/-- The scalar of `VSMUL`: the immediate read as a signed integer, not scaled
(30_encoding.md R64). -/
def scalar (imm : Imm) : Int := imm.toInt

/-- Element `i` of a sequence (00_scope.md R9). Indices past the end are never used by a meaning;
they read as 0. -/
def elem (s : List Word) (i : Nat) : Word := s.getD i 0

/-- The signed value of element `i` of a sequence. -/
def elemInt (s : List Word) (i : Nat) : Int := (elem s i).toInt

end Sys2Proof.Machine
end

