-- ==== Sys2Proof/WellFormed.lean ====
section
/-! DEFINITION. When a command is well formed. The widths of the fields are the types' own; what is
left to check is what the unit itself checks, its ranges (30_encoding.md R72). -/

namespace Sys2Proof

/-- The command passes the range check of 30_encoding.md R72. -/
abbrev Instr.WellFormed (i : Instr) : Prop := Machine.rangesOk i = true

end Sys2Proof
end

