-- ==== Sys2Proof/Decode.lean ====
section
/-! DEFINITION. Decoding a command word, total, refusing by name (30_encoding.md R60 steps 1 and 2,
R61 to R66, R71, R73, R74), and the encoder written from the same tables. The range check, step 3,
reads the decoded command: `Machine.rangesOk`. -/

namespace Sys2Proof

/-! ### The fields of a command word (30_encoding.md R61) -/

/-- `op`, bits 63:56. -/
def opField (cmd : Command) : BitVec 8 := cmd.extractLsb' 56 8

/-- `dst`, bits 55:43. -/
def dstField (cmd : Command) : Addr := cmd.extractLsb' 43 13

/-- `src1`, bits 42:30. -/
def src1Field (cmd : Command) : Addr := cmd.extractLsb' 30 13

/-- `s2`, bits 29:14, as the immediate `imm16`. -/
def immField (cmd : Command) : Imm := cmd.extractLsb' 14 16

/-- `src2 = s2[12:0]`, bits 26:14. -/
def src2Field (cmd : Command) : Addr := cmd.extractLsb' 14 13

/-- `len`, bits 13:0. -/
def lenField (cmd : Command) : Len := cmd.extractLsb' 0 14

/-! ### The opcode map (30_encoding.md R66) -/

/-- The opcode of a mnemonic (30_encoding.md R66). -/
def opcode : Op → BitVec 8
  | .frz => 0x01
  | .vfrz => 0x02
  | .vzero => 0x03
  | .vcopy => 0x04
  | .vadd => 0x05
  | .vacc => 0x06
  | .vsmul => 0x07
  | .conv4 => 0x08
  | .kmul8 => 0x09
  | .kmul16 => 0x0A
  | .kmul32 => 0x0B
  | .kmul64 => 0x0C
  | .kmul128 => 0x0D
  | .t6eval => 0x0E
  | .t6interp => 0x0F
  | .t6recon => 0x10
  | .mul768 => 0x11

/-- The mnemonic of an opcode; `00` and `12` to `FF` select none (30_encoding.md R66, R71). -/
def opOf (b : BitVec 8) : Option Op :=
  match b.toNat with
  | 0x01 => some .frz
  | 0x02 => some .vfrz
  | 0x03 => some .vzero
  | 0x04 => some .vcopy
  | 0x05 => some .vadd
  | 0x06 => some .vacc
  | 0x07 => some .vsmul
  | 0x08 => some .conv4
  | 0x09 => some .kmul8
  | 0x0A => some .kmul16
  | 0x0B => some .kmul32
  | 0x0C => some .kmul64
  | 0x0D => some .kmul128
  | 0x0E => some .t6eval
  | 0x0F => some .t6interp
  | 0x10 => some .t6recon
  | 0x11 => some .mul768
  | _ => none

/-- The format of a mnemonic (30_encoding.md R66). -/
def formatOf : Op → Format
  | .frz => .S
  | .vfrz | .vzero => .Z
  | .vcopy | .vacc => .U
  | .vadd => .B
  | .vsmul => .I
  | .conv4 | .kmul8 | .kmul16 | .kmul32 | .kmul64 | .kmul128 | .t6eval | .mul768 => .M
  | .t6interp | .t6recon => .T

/-- The mask of fixed bits of a format (30_encoding.md R63). -/
def maskOf : Format → Command
  | .S => 0xFF0000003FFFFFFF
  | .Z => 0xFF0007FFFFFFC000
  | .U => 0xFF0000003FFFC000
  | .B => 0xFF00000038000000
  | .I => 0xFF00000000000000
  | .M => 0xFF00000038003FFF
  | .T => 0xFF0000003FFFFFFF

/-- The reserved bits of a format: its fixed bits less the opcode (30_encoding.md R63). -/
def reservedMask (f : Format) : Command := maskOf f &&& 0x00FFFFFFFFFFFFFF

/-! ### The decoder -/

/-- The command a word stands for, once its opcode is known: the fields its format uses
(30_encoding.md R63). -/
def fieldsOf (op : Op) (cmd : Command) : Instr :=
  match op with
  | .frz => .frz (dstField cmd) (src1Field cmd)
  | .vfrz => .vfrz (dstField cmd) (lenField cmd)
  | .vzero => .vzero (dstField cmd) (lenField cmd)
  | .vcopy => .vcopy (dstField cmd) (src1Field cmd) (lenField cmd)
  | .vadd => .vadd (dstField cmd) (src1Field cmd) (src2Field cmd) (lenField cmd)
  | .vacc => .vacc (dstField cmd) (src1Field cmd) (lenField cmd)
  | .vsmul => .vsmul (dstField cmd) (src1Field cmd) (immField cmd) (lenField cmd)
  | .conv4 => .conv4 (dstField cmd) (src1Field cmd) (src2Field cmd)
  | .kmul8 => .kmul8 (dstField cmd) (src1Field cmd) (src2Field cmd)
  | .kmul16 => .kmul16 (dstField cmd) (src1Field cmd) (src2Field cmd)
  | .kmul32 => .kmul32 (dstField cmd) (src1Field cmd) (src2Field cmd)
  | .kmul64 => .kmul64 (dstField cmd) (src1Field cmd) (src2Field cmd)
  | .kmul128 => .kmul128 (dstField cmd) (src1Field cmd) (src2Field cmd)
  | .t6eval => .t6eval (dstField cmd) (src1Field cmd) (src2Field cmd)
  | .t6interp => .t6interp (dstField cmd) (src1Field cmd)
  | .t6recon => .t6recon (dstField cmd) (src1Field cmd)
  | .mul768 => .mul768 (dstField cmd) (src1Field cmd) (src2Field cmd)

/-- Decode a command word: steps 1 and 2 of `issue` (30_encoding.md R60), the opcode before the
reserved fields (R74). -/
def decode (cmd : Command) : Except CmdError Instr :=
  match opOf (opField cmd) with
  | none => .error .illegalOpcode
  | some op =>
    if cmd &&& reservedMask (formatOf op) = 0 then .ok (fieldsOf op cmd) else .error .reservedField

/-! ### The encoder -/

/-- The mnemonic of a command. -/
def opIn : Instr → Op
  | .frz .. => .frz
  | .vfrz .. => .vfrz
  | .vzero .. => .vzero
  | .vcopy .. => .vcopy
  | .vadd .. => .vadd
  | .vacc .. => .vacc
  | .vsmul .. => .vsmul
  | .conv4 .. => .conv4
  | .kmul8 .. => .kmul8
  | .kmul16 .. => .kmul16
  | .kmul32 .. => .kmul32
  | .kmul64 .. => .kmul64
  | .kmul128 .. => .kmul128
  | .t6eval .. => .t6eval
  | .t6interp .. => .t6interp
  | .t6recon .. => .t6recon
  | .mul768 .. => .mul768

/-- `cmd = op ++ dst ++ src1 ++ s2 ++ len` (30_encoding.md R61). -/
def joinFields (op : Op) (dst src1 : Addr) (s2 : Imm) (len : Len) : Command :=
  opcode op ++ dst ++ src1 ++ s2 ++ len

/-- The `s2` field of a second source address: `s2[15:13]` is zero (30_encoding.md R61, R63). -/
def s2OfAddr (src2 : Addr) : Imm := 0#3 ++ src2

/-- The word of a command: the fields its format uses, every other field zero
(30_encoding.md R61, R63). -/
def encode (i : Instr) : Command :=
  match i with
  | .frz d a => joinFields (opIn i) d a 0 0
  | .vfrz d n => joinFields (opIn i) d 0 0 n
  | .vzero d n => joinFields (opIn i) d 0 0 n
  | .vcopy d a n => joinFields (opIn i) d a 0 n
  | .vadd d a b n => joinFields (opIn i) d a (s2OfAddr b) n
  | .vacc d a n => joinFields (opIn i) d a 0 n
  | .vsmul d a c n => joinFields (opIn i) d a c n
  | .conv4 d a b => joinFields (opIn i) d a (s2OfAddr b) 0
  | .kmul8 d a b => joinFields (opIn i) d a (s2OfAddr b) 0
  | .kmul16 d a b => joinFields (opIn i) d a (s2OfAddr b) 0
  | .kmul32 d a b => joinFields (opIn i) d a (s2OfAddr b) 0
  | .kmul64 d a b => joinFields (opIn i) d a (s2OfAddr b) 0
  | .kmul128 d a b => joinFields (opIn i) d a (s2OfAddr b) 0
  | .t6eval d a b => joinFields (opIn i) d a (s2OfAddr b) 0
  | .t6interp d a => joinFields (opIn i) d a 0 0
  | .t6recon d a => joinFields (opIn i) d a 0 0
  | .mul768 d a b => joinFields (opIn i) d a (s2OfAddr b) 0

/-- The command word of an instruction given as `nbits` bits numbered as the opcode table numbers
them, the bits above zero; a command is one 64-bit word (30_encoding.md R61). -/
def tableWord (nbits w : Nat) : Command := BitVec.ofNat 64 (w % 2 ^ nbits)

/-- What the decoder reads from a table word; none where it refuses. -/
def decodeTableWord (nbits w : Nat) : Option Instr :=
  match decode (tableWord nbits w) with
  | .ok i => some i
  | .error _ => none

end Sys2Proof
end

