-- ==== Sys2Proof/Machine/State.lean ====
section
/-! DEFINITION. The state of the unit (10_state.md), the host's transactions (10_state.md R24), how a
step can stop, and the state after reset (10_state.md R30, R31; 70_reset_and_hazards.md R230). -/

namespace Sys2Proof.Machine

/-- The transactions of the host (10_state.md R24). -/
inductive Transaction where
  /-- Puts all state in its reset value (70_reset_and_hazards.md R230). -/
  | reset
  /-- `PMEM[a] <- v` (20_memory.md R40). -/
  | pmemWrite (a : Addr) (v : Word)
  /-- Returns `PMEM[a]` (20_memory.md R41). -/
  | pmemRead (a : Addr)
  /-- Decodes and executes a command (30_encoding.md R60). -/
  | issue (cmd : Command)
  /-- Returns the `STATUS` word (10_state.md R22). -/
  | statusRead
  /-- `STATUS <- 0` (60_exceptions.md R215). -/
  | statusClear
  deriving DecidableEq, Repr

/-- The written words of PMEM as (word address, word) cells, addresses strictly rising. A cell is a
whole word because PMEM has no bytes (20_memory.md R42; log 1). A word with no cell has not been
written since reset. -/
abbrev Memory := List (Nat × Word)

/-- How the machine stops. Nothing stops this unit: its only errors are command errors, which are
next states (60_exceptions.md R210, R213), and every address a transaction can name exists
(20_memory.md R40, 30_encoding.md R72). So there is no constructor; this is safe (log 11). -/
inductive Fault where
  deriving DecidableEq, Repr

/-- How an instruction can be refused. -/
inductive Refusal where
  /-- An instruction that has no meaning in the model yet; raised by `exec` alone. Safe: nothing is
  claimed of it. No arm raises it now. -/
  | notModelled (mnemonic : String)
  deriving DecidableEq, Repr

/-- The state. The unit has no registers but `STATUS` (10_state.md R20, R21, R22) and one memory
(10_state.md R23); the last four fields are the model's own (INVENTORY.md, State). -/
structure State where
  /-- `STATUS` (10_state.md R22). -/
  status : Word
  /-- `PMEM` (10_state.md R23): its written words. -/
  pmem : Memory
  /-- The model's own: the number of the reset PMEM's unwritten words were drawn at
  (10_state.md R31; log 4). -/
  resets : Nat
  /-- The model's own: the next occasion of an UNSPEC result (00_scope.md R12; log 5). -/
  draws : Nat
  /-- The model's own: the transactions the host has yet to perform, the next one first
  (10_state.md R24; log 2). -/
  host : List Transaction
  /-- The model's own: what the last transaction returned to the host (log 3). -/
  reply : Option Word
  deriving DecidableEq, Repr

/-- The unit right after reset: `STATUS` is 0 and no PMEM word is specified (10_state.md R30, R31;
70_reset_and_hazards.md R230). The model's own counters start at 0 and the host has nothing pending
(DESIGN CHOICE, logs 2 to 5). -/
def State.reset : State where
  status := 0
  pmem := []
  resets := 0
  draws := 0
  host := []
  reply := none

end Sys2Proof.Machine
end

