-- ==== Sys2Proof/Machine/Flags.lean ====
section
/-! DEFINITION. The fields of `STATUS` (10_state.md R22) and the codes of the command errors
(60_exceptions.md R211). The unit has no condition codes: no command computes a flag
(10_state.md R22). -/

namespace Sys2Proof.Machine

/-- `ERR`, bit 0 of `STATUS` (10_state.md R22). -/
def errOf (status : Word) : Bool := status.getLsbD 0

/-- `ECODE`, bits 3:1 of `STATUS` (10_state.md R22). -/
def ecodeOf (status : Word) : BitVec 3 := status.extractLsb' 1 3

/-- The `STATUS` word with these fields; bits 31:4 are hardwired 0 (10_state.md R22). -/
def packStatus (err : Bool) (ecode : BitVec 3) : Word := 0#28 ++ ecode ++ BitVec.ofBool err

/-- What a read of `STATUS` gives: its fields, bits 31:4 reading as 0 (10_state.md R22; log 9). -/
def statusWord (s : State) : Word := packStatus (errOf s.status) (ecodeOf s.status)

/-- The code of a command error (60_exceptions.md R211). -/
def codeOf : CmdError → BitVec 3
  | .illegalOpcode => 1
  | .reservedField => 2
  | .badRange => 3

end Sys2Proof.Machine
end

