-- ==== Sys2Proof/Machine/Ops.lean ====
section
/-! DEFINITION. The named operations of the unit: PMEM words and ranges (00_scope.md R10,
20_memory.md), the two orders in which commands touch them (20_memory.md R47, R49), the free values
(00_scope.md R12), error entry and error return (60_exceptions.md R213, R215), and the host's other
transactions (10_state.md R24). -/

namespace Sys2Proof.Machine

/-! ### PMEM cells -/

/-- The word a memory lists at an address, if it has been written since reset. -/
def getCell (a : Nat) : Memory → Option Word
  | [] => none
  | (b, w) :: m => if a = b then some w else getCell a m

/-- List a word at an address, keeping the addresses rising. -/
def putCell (a : Nat) (v : Word) : Memory → Memory
  | [] => [(a, v)]
  | (b, w) :: m =>
    if a < b then (a, v) :: (b, w) :: m
    else if a = b then (a, v) :: m
    else (b, w) :: putCell a v m

/-- The canonical form of a memory: addresses strictly rising, every one a word address of PMEM.
An unlisted word has no value of the spec's to compare with, so no cell repeats it (log 4). -/
abbrev Memory.wf (m : Memory) : Prop :=
  (m.map Prod.fst).Pairwise (· < ·) ∧ ∀ c ∈ m, c.1 < Config.pmemWords

/-- `PMEM[a]` (00_scope.md R10). A word nothing has written since reset holds the free value drawn
for it at that reset, the same at every read until it is written (10_state.md R31,
93_implementation_defined.md U4, U6; log 4). -/
def State.readWord (s : State) (a : Nat) : Word :=
  (getCell a s.pmem).getD (Config.resetWord s.resets a)

/-- `PMEM[a] <- v` (00_scope.md R10). -/
def State.writeWord (s : State) (a : Nat) (v : Word) : State :=
  { s with pmem := putCell a v s.pmem }

/-! ### PMEM ranges -/

/-- `MemRead(a, n)`: the words at `a`, `a+1`, …, in that order (00_scope.md R10). -/
def State.memRead (s : State) (a n : Nat) : List Word :=
  (List.range n).map fun i => s.readWord (a + i)

/-- `MemWrite(a, n, v)`: the words of `v` to `a`, `a+1`, …, in that order (00_scope.md R10). -/
def State.memWrite (s : State) (a : Nat) : List Word → State
  | [] => s
  | v :: vs => (s.writeWord a v).memWrite (a + 1) vs

/-- Element order of the elementwise commands: steps `0`, `1`, …, `n-1`, each on the state the one
before left (20_memory.md R47). -/
def sweep (f : Nat → State → State) : Nat → State → State
  | 0, s => s
  | n + 1, s => f n (sweep f n s)

/-- An elementwise command: for each index in ascending order, compute the element's word from the
state so far, then write it to the destination (20_memory.md R47). -/
def State.elementwise (s : State) (dst n : Nat) (val : Nat → State → Word) : State :=
  sweep (fun i t => t.writeWord (dst + i) (val i t)) n s

/-! ### Free values -/

/-- The free word of UNSPEC position `index` of the command being executed (00_scope.md R12;
log 5). -/
def State.unspec (s : State) (index : Nat) : Word := Config.unspec s.draws index

/-- The occasion of UNSPEC results is over: a later command draws anew (00_scope.md R12,
"possibly different on each occurrence"; log 5). -/
def State.drawn (s : State) : State := { s with draws := s.draws + 1 }

/-! ### Error entry and error return -/

/-- `raise CmdError(code)`: `ECODE` takes the code if `ERR` was 0, then `ERR` is 1; PMEM is not read
and not written; there is no handler, vector or saved state (60_exceptions.md R213;
00_scope.md R11). -/
def State.raise (s : State) (e : CmdError) : State :=
  { s with
    status := packStatus true (if errOf s.status then ecodeOf s.status else codeOf e) }

/-- `status_clear()`: `STATUS <- 0` (60_exceptions.md R215). -/
def State.statusClear (s : State) : State := { s with status := 0 }

/-- Step 3 of `issue`: a command whose ranges fail raises `BAD_RANGE` and has no effect; otherwise
it has its effect (30_encoding.md R60, R72; log 16). -/
def State.guarded (s : State) (i : Instr) (effect : State) : State :=
  if rangesOk i then effect else s.raise .badRange

/-! ### The host's other transactions -/

/-- `reset()`: `STATUS` is 0 and every PMEM word is unspecified, drawn anew (10_state.md R30, R31;
70_reset_and_hazards.md R230). -/
def State.resetUnit (s : State) : State :=
  { s with status := 0, pmem := [], resets := s.resets + 1 }

/-- A transaction returns a word to the host (log 3). -/
def State.replied (s : State) (w : Word) : State := { s with reply := some w }

/-- `pmem_write(a, v)` (20_memory.md R40). -/
def State.pmemWrite (s : State) (a : Addr) (v : Word) : State := s.writeWord a.toNat v

/-- `pmem_read(a)` (20_memory.md R41). -/
def State.pmemRead (s : State) (a : Addr) : State := s.replied (s.readWord a.toNat)

/-- `status_read()` (10_state.md R22). -/
def State.statusRead (s : State) : State := s.replied (statusWord s)

end Sys2Proof.Machine
end

