-- ==== Sys2Proof/Machine/Reduction.lean ====
section
/-! DEFINITION. The reduction function and the commands `FRZ` and `VFRZ` (40_reduction.md). -/

namespace Sys2Proof.Machine

/-- The valid domain of `reduce` (00_scope.md R14; 40_reduction.md R90). -/
abbrev InDomain (x : Int) : Prop := -Config.rbound < x ∧ x < Config.rbound

/-- A canonical word: its value is in `[0, Q)` (00_scope.md R9, R14). -/
abbrev Canonical (w : Word) : Prop := 0 ≤ w.toInt ∧ w.toInt < Config.q

/-- A canonical sequence (00_scope.md R9). -/
abbrev AllCanonical (s : List Word) : Prop := (s.all fun w => decide (Canonical w)) = true

/-- The canonical representative of an integer modulo `Q`, never negative (00_scope.md R7): what
`reduce` gives for an integer in its domain (40_reduction.md R90). -/
def residue (x : Int) : Word := wrap32 (x % Config.q)

/-- `reduce`: the canonical representative inside the valid domain (40_reduction.md R90); outside it
the result is UNSPEC, the free word `free` (R95). -/
def reduce (free : Word) (x : Int) : Word := if InDomain x then residue x else free

/-! ### The reference datapath (40_reduction.md R91)

One datapath that has the value of `reduce` inside the domain. Outside it its words are not
normative (R95), so no meaning uses them (log 7). -/

/-- First estimate: `x1 = x - 9829 * ((13 * x) asr 17)` (40_reduction.md R91). -/
def datapathStep1 (x : Word) : Word := x - 9829 * (13 * x).sshiftRight 17

/-- Second estimate: `x2 = x1 - 9829 * ((427 * x1 + 2097152) asr 22)` (40_reduction.md R91). -/
def datapathStep2 (x1 : Word) : Word := x1 - 9829 * (427 * x1 + 2097152).sshiftRight 22

/-- The final select: `y = x2 + (9829 & (x2 asr 31))`, no branch (40_reduction.md R91, R93). -/
def datapathSelect (x2 : Word) : Word := x2 + (9829 &&& x2.sshiftRight 31)

/-- The reference datapath of `reduce` (40_reduction.md R91). -/
def datapath (x : Word) : Word := datapathSelect (datapathStep2 (datapathStep1 x))

/-! ### The commands -/

/-- `FRZ dst, src1`: reduce one word (40_reduction.md R96). -/
def execFrz (dst src1 : Addr) (s : State) : Host.Outcome State Fault Refusal :=
  .next (s.guarded (.frz dst src1)
    (s.elementwise dst.toNat 1 fun i t =>
      reduce (s.unspec i) (t.readWord (src1.toNat + i)).toInt).drawn)

/-- `VFRZ dst, len`: canonicalize a buffer in place (40_reduction.md R97). -/
def execVfrz (dst : Addr) (len : Len) (s : State) : Host.Outcome State Fault Refusal :=
  .next (s.guarded (.vfrz dst len)
    (s.elementwise dst.toNat len.toNat fun i t =>
      reduce (s.unspec i) (t.readWord (dst.toNat + i)).toInt).drawn)

end Sys2Proof.Machine
end

