-- ==== Sys2Proof/Machine/Primitives.lean ====
section
/-! DEFINITION. The polynomial primitives (41_primitives.md): the commands `VZERO`, `VCOPY`, `VADD`,
`VACC` and `VSMUL`, and the same elementwise functions on sequences, which the composite commands
use on hidden scratch (43_karatsuba.md R142). -/

namespace Sys2Proof.Machine

/-! ### The commands -/

/-- `VZERO dst, len` (41_primitives.md R111). -/
def execVzero (dst : Addr) (len : Len) (s : State) : Host.Outcome State Fault Refusal :=
  .next (s.guarded (.vzero dst len)
    (s.elementwise dst.toNat len.toNat fun _ _ => 0))

/-- `VCOPY dst, src1, len`: bit for bit, no canonicalization (41_primitives.md R112). -/
def execVcopy (dst src1 : Addr) (len : Len) (s : State) : Host.Outcome State Fault Refusal :=
  .next (s.guarded (.vcopy dst src1 len)
    (s.elementwise dst.toNat len.toNat fun i t => t.readWord (src1.toNat + i)))

/-- `VADD dst, src1, src2, len`: the sum taken in `Z`, then reduced (41_primitives.md R113). -/
def execVadd (dst src1 src2 : Addr) (len : Len) (s : State) : Host.Outcome State Fault Refusal :=
  .next (s.guarded (.vadd dst src1 src2 len)
    (s.elementwise dst.toNat len.toNat fun i t =>
      reduce (s.unspec i)
        ((t.readWord (src1.toNat + i)).toInt + (t.readWord (src2.toNat + i)).toInt)).drawn)

/-- `VACC dst, src1, len`: `wrap32` addition, not reduced (41_primitives.md R114). -/
def execVacc (dst src1 : Addr) (len : Len) (s : State) : Host.Outcome State Fault Refusal :=
  .next (s.guarded (.vacc dst src1 len)
    (s.elementwise dst.toNat len.toNat fun i t =>
      t.readWord (dst.toNat + i) + t.readWord (src1.toNat + i)))

/-- `VSMUL dst, src1, #c, len`: the product taken in `Z`, then reduced (41_primitives.md R115). -/
def execVsmul (dst src1 : Addr) (imm : Imm) (len : Len) (s : State) :
    Host.Outcome State Fault Refusal :=
  .next (s.guarded (.vsmul dst src1 imm len)
    (s.elementwise dst.toNat len.toNat fun i t =>
      reduce (s.unspec i) (scalar imm * (t.readWord (src1.toNat + i)).toInt)).drawn)

/-! ### The same functions on sequences

The composite commands apply them to canonical or bounded operands only, so that every reduction is
inside its domain (43_karatsuba.md R144, 44_toom6_eval.md R162, 45_toom6_interp.md R181) and
`residue` is its value (log 7). -/

/-- `VZERO`: `n` zeros (41_primitives.md R111). -/
def seqZero (n : Nat) : List Word := List.replicate n 0

/-- `VADD` on sequences (41_primitives.md R113). -/
def seqAdd (a b : List Word) : List Word :=
  List.zipWith (fun x y => residue (x.toInt + y.toInt)) a b

/-- `VSMUL` on a sequence (41_primitives.md R115). -/
def seqScale (c : Int) (a : List Word) : List Word := a.map fun x => residue (c * x.toInt)

/-- `VFRZ` on a sequence (40_reduction.md R97). -/
def seqFreeze (a : List Word) : List Word := a.map fun x => residue x.toInt

/-- `VACC` of a sequence into the part of a buffer that starts at `off` (41_primitives.md R114). -/
def seqAcc (off : Nat) (src buf : List Word) : List Word :=
  buf.take off ++ List.zipWith (· + ·) (buf.drop off) src ++ buf.drop (off + src.length)

end Sys2Proof.Machine
end

