-- ==== Sys2Proof/Machine/Schoolbook.lean ====
section
/-! DEFINITION. The length-4 schoolbook convolver and the command `CONV4` (42_schoolbook.md), and the
shape shared by the composite commands (20_memory.md R49). -/

namespace Sys2Proof.Machine

/-- Add a word to element `k` of a sequence, with `wrap32` (42_schoolbook.md R131). -/
def addAt (p : List Word) (k : Nat) (v : Word) : List Word := p.set k (elem p k + v)

/-- The pairs `(i, j)` of the schoolbook loops, `i` outer and `j` inner, both from 0 to 3
(42_schoolbook.md R131; 90_conflicts.md C9). -/
def conv4Pairs : List (Nat × Nat) :=
  (List.range Config.kbase).flatMap fun i => (List.range Config.kbase).map fun j => (i, j)

/-- The schoolbook convolution of two length-4 sequences: every product reduced, the running sums
not (42_schoolbook.md R131, R132; 90_conflicts.md C2). `red i j` is the reduction of the product of
the pair `(i, j)`. -/
def conv4 (red : Nat → Nat → Int → Word) (f g : List Word) : List Word :=
  conv4Pairs.foldl
    (fun p ij => addAt p (ij.1 + ij.2) (red ij.1 ij.2 (elemInt f ij.1 * elemInt g ij.2)))
    (seqZero (2 * Config.kbase))

/-- Composite commands: the destination range takes the words computed from the snapshot, and
nothing else changes (20_memory.md R49). -/
def State.composite (s : State) (dst : Addr) (result : List Word) : State :=
  (s.memWrite dst.toNat result).drawn

/-- The `n` free words of a destination range that is UNSPEC throughout
(93_implementation_defined.md U2; log 6). -/
def State.unspecs (s : State) (n : Nat) : List Word := (List.range n).map s.unspec

/-- `CONV4 dst, src1, src2`. A product outside the domain of `reduce` contributes a free word of its
own, which makes every sum it feeds free (42_schoolbook.md R131; logs 5, 6, 17). -/
def execConv4 (dst src1 src2 : Addr) (s : State) : Host.Outcome State Fault Refusal :=
  .next (s.guarded (.conv4 dst src1 src2)
    (s.composite dst
      (conv4 (fun i j x => reduce (s.unspec (4 * i + j)) x)
        (s.memRead src1.toNat 4) (s.memRead src2.toNat 4))))

end Sys2Proof.Machine
end

