-- ==== Sys2Proof/Machine/Karatsuba.lean ====
section
/-! DEFINITION. The Karatsuba tree and the commands `KMUL8` to `KMUL128` (43_karatsuba.md). -/

namespace Sys2Proof.Machine

/-- The operand length of level `v`: `2^(v+2)`, level 0 being the base multiplier
(00_scope.md R14; 43_karatsuba.md R142). -/
def levelLen (v : Nat) : Nat := Config.kbase * 2 ^ v

/-- The recombination of a level: the output zeroed, then `A` accumulated low, `B` high, and the
negation `Nn` of `A + B` and then `C` in the middle; not reduced (43_karatsuba.md R142). `len` is
the length `L` of the halves. -/
def recombine (len : Nat) (a b c : List Word) : List Word :=
  let nn := seqScale (-1) (seqAdd a b)
  seqAcc len c (seqAcc len nn (seqAcc (2 * len) b (seqAcc 0 a (seqZero (4 * len)))))

/-- `kmul_n` at level `v` (`n = levelLen v`), for canonical operands of length `n`
(43_karatsuba.md R142, R151; 90_conflicts.md C3, C4). -/
def kmul : Nat → List Word → List Word → List Word
  | 0, f, g => conv4 (fun _ _ x => residue x) f g
  | v + 1, f, g =>
    let len := levelLen v
    let f0 := f.take len
    let f1 := f.drop len
    let g0 := g.take len
    let g1 := g.drop len
    recombine len (kmul v f0 g0) (kmul v f1 g1) (kmul v (seqAdd f0 f1) (seqAdd g0 g1))

/-- The effect shared by the Karatsuba commands: the product of the two snapshots, or UNSPEC in
every word of the destination when an operand is not canonical (43_karatsuba.md R145, R150;
log 6). -/
def State.karatsuba (s : State) (v : Nat) (dst src1 src2 : Addr) : State :=
  let f := s.memRead src1.toNat (levelLen v)
  let g := s.memRead src2.toNat (levelLen v)
  s.composite dst
    (if AllCanonical f ∧ AllCanonical g then kmul v f g else s.unspecs (2 * levelLen v))

/-- `KMUL8 dst, src1, src2` (43_karatsuba.md R145). -/
def execKmul8 (dst src1 src2 : Addr) (s : State) : Host.Outcome State Fault Refusal :=
  .next (s.guarded (.kmul8 dst src1 src2) (s.karatsuba 1 dst src1 src2))

/-- `KMUL16 dst, src1, src2` (43_karatsuba.md R146). -/
def execKmul16 (dst src1 src2 : Addr) (s : State) : Host.Outcome State Fault Refusal :=
  .next (s.guarded (.kmul16 dst src1 src2) (s.karatsuba 2 dst src1 src2))

/-- `KMUL32 dst, src1, src2` (43_karatsuba.md R147). -/
def execKmul32 (dst src1 src2 : Addr) (s : State) : Host.Outcome State Fault Refusal :=
  .next (s.guarded (.kmul32 dst src1 src2) (s.karatsuba 3 dst src1 src2))

/-- `KMUL64 dst, src1, src2` (43_karatsuba.md R148). -/
def execKmul64 (dst src1 src2 : Addr) (s : State) : Host.Outcome State Fault Refusal :=
  .next (s.guarded (.kmul64 dst src1 src2) (s.karatsuba 4 dst src1 src2))

/-- `KMUL128 dst, src1, src2` (43_karatsuba.md R149). -/
def execKmul128 (dst src1 src2 : Addr) (s : State) : Host.Outcome State Fault Refusal :=
  .next (s.guarded (.kmul128 dst src1 src2) (s.karatsuba 5 dst src1 src2))

end Sys2Proof.Machine
end

