-- ==== Sys2Proof/Machine/Tables.lean ====
section
/-! DEFINITION. The two constant tables (10_state.md R26, R27). They have no write path and no reset
can change them (R30), so they are constants, not fields of the state (93_implementation_defined.md
U11; log 8). -/

namespace Sys2Proof.Machine

/-- The rows of `EVT`, the evaluation-point table, `e` = 0 to 10 for the points 0, +1, -1, +2, -2,
+3, -3, +4, -4, +5, infinity; a row's entries are the weights of blocks 0 to 5 (10_state.md R26). -/
def evtRows : List (List Int) :=
  [[1, 0, 0, 0, 0, 0],
   [1, 1, 1, 1, 1, 1],
   [1, -1, 1, -1, 1, -1],
   [1, 2, 4, 8, 16, 32],
   [1, -2, 4, -8, 16, -32],
   [1, 3, 9, 27, 81, 243],
   [1, -3, 9, -27, 81, -243],
   [1, 4, 16, 64, 256, 1024],
   [1, -4, 16, -64, 256, -1024],
   [1, 5, 25, 125, 625, 3125],
   [0, 0, 0, 0, 0, 1]]

/-- `EVT[e][b]` (10_state.md R26). -/
def evt (e b : Nat) : Int := (evtRows.getD e []).getD b 0

/-- The rows of `IMX`, the interpolation matrix, `k` = 1 to 9 in order; a row's entries are the
coefficients of `E_0` to `E_10` (10_state.md R27). -/
def imxRows : List (List Int) :=
  [[7863, 1, 6552, 3276, 8425, 8893, 234, 5090, 4895, 3916, 6949],
   [1705, 7864, 7864, 8846, 8846, 1841, 1841, 5169, 5169, 0, 576],
   [9488, 9569, 7381, 7131, 33, 308, 1920, 8107, 2319, 2889, 4100],
   [3328, 9228, 9228, 2041, 2041, 8027, 8027, 8527, 8527, 0, 9009],
   [3266, 2727, 4935, 8102, 157, 6737, 6138, 8742, 9147, 9023, 8464],
   [6655, 5993, 5993, 9515, 9515, 5365, 5365, 372, 372, 0, 273],
   [8498, 2819, 5952, 901, 3916, 1018, 5776, 3309, 2826, 4301, 150],
   [7969, 1488, 1488, 9085, 9085, 4425, 4425, 5590, 5590, 0, 9799],
   [372, 9457, 9581, 248, 7127, 2702, 5590, 4239, 471, 9358, 9824]]

/-- `IMX[k][e]` for `k` = 1 to 9 (10_state.md R27). -/
def imx (k e : Nat) : Int := (imxRows.getD (k - 1) []).getD e 0

end Sys2Proof.Machine
end

