-- ==== Sys2Proof/Machine/ToomEval.lean ====
section
/-! DEFINITION. The Toom-6 evaluator and the command `T6EVAL` (44_toom6_eval.md). -/

namespace Sys2Proof.Machine

/-- Block `b` of an operand: its elements `128b` to `128b + 127` (44_toom6_eval.md R161). -/
def block (b : Nat) (f : List Word) : List Word := (f.drop (Config.bl * b)).take Config.bl

/-- Element `i` of the weighted sum of the blocks at point `e`, in `Z` (44_toom6_eval.md R162). -/
def weightedSum (e : Nat) (f : List Word) (i : Nat) : Int :=
  ((List.range Config.nb).map fun b => evt e b * elemInt f (Config.bl * b + i)).sum

/-- `Fw_e`: an operand evaluated at point `e`. The limit points take block 0 and block 5 alone,
without `reduce` (44_toom6_eval.md R162, R163; 90_conflicts.md C1, C6). -/
def atPoint (e : Nat) (f : List Word) : List Word :=
  if e = 0 then block 0 f
  else if e = 10 then block 5 f
  else (List.range Config.bl).map fun i => residue (weightedSum e f i)

/-- `E_e`: the canonical evaluation result at point `e` (44_toom6_eval.md R164). -/
def evalResult (e : Nat) (f g : List Word) : List Word :=
  seqFreeze (kmul 5 (atPoint e f) (atPoint e g))

/-- The eleven evaluation results, `E_0` first (44_toom6_eval.md R165). -/
def t6eval (f g : List Word) : List Word :=
  (List.range Config.npts).flatMap fun e => evalResult e f g

/-- `T6EVAL dst, src1, src2`. With a non-canonical operand every word of the destination is UNSPEC
(44_toom6_eval.md R165; log 6). -/
def execT6eval (dst src1 src2 : Addr) (s : State) : Host.Outcome State Fault Refusal :=
  .next (s.guarded (.t6eval dst src1 src2)
    (s.composite dst
      (if AllCanonical (s.memRead src1.toNat 768) ∧ AllCanonical (s.memRead src2.toNat 768)
        then t6eval (s.memRead src1.toNat 768) (s.memRead src2.toNat 768)
        else s.unspecs 2816)))

end Sys2Proof.Machine
end

