-- ==== Sys2Proof/Machine/ToomInterp.lean ====
section
/-! DEFINITION. The Toom-6 interpolator and reconstruction, the commands `T6INTERP` and `T6RECON`
(45_toom6_interp.md). -/

namespace Sys2Proof.Machine

/-- Element `i` of block `k` of eleven blocks of 256 words laid back to back
(44_toom6_eval.md R165; 45_toom6_interp.md R183). -/
def blockElem (blocks : List Word) (k i : Nat) : Word := elem blocks (256 * k + i)

/-- Element `i` of each of the eleven evaluation results (45_toom6_interp.md R180). -/
def column (blocks : List Word) (i : Nat) : List Word :=
  (List.range Config.npts).map fun e => blockElem blocks e i

/-- One word of coefficient block `k`, from the eleven words of its column: each product reduced,
the sum reduced (45_toom6_interp.md R181, R183). -/
def interpWord (k : Nat) (col : List Word) : Word :=
  residue (((List.range Config.npts).map fun e => (residue (imx k e * elemInt col e)).toInt).sum)

/-- The eleven coefficient blocks: `c_0` and `c_10` verbatim; the others interpolated, an element
whose column is not canonical being UNSPEC (45_toom6_interp.md R183). `free` gives the free word of
each position. -/
def t6interp (free : Nat → Word) (blocks : List Word) : List Word :=
  (List.range Config.npts).flatMap fun k => (List.range 256).map fun i =>
    if k = 0 ∨ k = 10 then blockElem blocks k i
    else if AllCanonical (column blocks i) then interpWord k (column blocks i)
    else free (256 * k + i)

/-- `T6INTERP dst, src1` (45_toom6_interp.md R183; log 6). -/
def execT6interp (dst src1 : Addr) (s : State) : Host.Outcome State Fault Refusal :=
  .next (s.guarded (.t6interp dst src1)
    (s.composite dst (t6interp s.unspec (s.memRead src1.toNat 2816))))

/-- Overlap-add of the eleven coefficient blocks at a stride of 128: the edges copied, the ten
interior segments with the canonicalizing add (45_toom6_interp.md R185, R186). `free` gives the free
word of a position whose sum is outside the domain of `reduce`. -/
def t6recon (free : Nat → Word) (blocks : List Word) : List Word :=
  ((List.range 128).map fun j => blockElem blocks 0 j)
  ++ ((List.range 10).flatMap fun r => (List.range 128).map fun j =>
      reduce (free (128 * (r + 1) + j))
        ((blockElem blocks (r + 1) j).toInt + (blockElem blocks r (128 + j)).toInt))
  ++ ((List.range 128).map fun j => blockElem blocks 10 (128 + j))

/-- `T6RECON dst, src1` (45_toom6_interp.md R186; log 6). -/
def execT6recon (dst src1 : Addr) (s : State) : Host.Outcome State Fault Refusal :=
  .next (s.guarded (.t6recon dst src1)
    (s.composite dst (t6recon s.unspec (s.memRead src1.toNat 2816))))

end Sys2Proof.Machine
end

