-- ==== Sys2Proof/Machine/Multiplier.lean ====
section
/-! DEFINITION. The top-level multiplier and the command `MUL768` (46_top.md). -/

namespace Sys2Proof.Machine

/-- The product of two canonical length-768 operands: the three Toom-6 stages, then `VFRZ`
(46_top.md R201; 90_conflicts.md C5). The stages' free words are never used, since every word
between the stages is canonical (45_toom6_interp.md R181, R185). -/
def mul768 (free : Nat → Word) (f g : List Word) : List Word :=
  seqFreeze (t6recon free (t6interp free (t6eval f g)))

/-- `MUL768 dst, src1, src2`. With a non-canonical operand every word of the destination is UNSPEC
(46_top.md R201; log 6). -/
def execMul768 (dst src1 src2 : Addr) (s : State) : Host.Outcome State Fault Refusal :=
  .next (s.guarded (.mul768 dst src1 src2)
    (s.composite dst
      (if AllCanonical (s.memRead src1.toNat 768) ∧ AllCanonical (s.memRead src2.toNat 768)
        then mul768 s.unspec (s.memRead src1.toNat 768) (s.memRead src2.toNat 768)
        else s.unspecs 1536)))

end Sys2Proof.Machine
end

