-- ==== Sys2Proof/Machine/Dispatch.lean ====
section
/-! DEFINITION. The meaning of each command: step 4 of `issue`, with step 3, the range check, inside
each meaning (30_encoding.md R60, R66). -/

namespace Sys2Proof.Machine

/-- The meaning of a command: its effect, or `BAD_RANGE` (30_encoding.md R60). -/
def exec (i : Instr) (s : State) : Host.Outcome State Fault Refusal :=
  match i with
  | .frz dst src1 => Sys2Proof.Machine.execFrz dst src1 s
  | .vfrz dst len => Sys2Proof.Machine.execVfrz dst len s
  | .vzero dst len => Sys2Proof.Machine.execVzero dst len s
  | .vcopy dst src1 len => Sys2Proof.Machine.execVcopy dst src1 len s
  | .vadd dst src1 src2 len => Sys2Proof.Machine.execVadd dst src1 src2 len s
  | .vacc dst src1 len => Sys2Proof.Machine.execVacc dst src1 len s
  | .vsmul dst src1 imm len => Sys2Proof.Machine.execVsmul dst src1 imm len s
  | .conv4 dst src1 src2 => Sys2Proof.Machine.execConv4 dst src1 src2 s
  | .kmul8 dst src1 src2 => Sys2Proof.Machine.execKmul8 dst src1 src2 s
  | .kmul16 dst src1 src2 => Sys2Proof.Machine.execKmul16 dst src1 src2 s
  | .kmul32 dst src1 src2 => Sys2Proof.Machine.execKmul32 dst src1 src2 s
  | .kmul64 dst src1 src2 => Sys2Proof.Machine.execKmul64 dst src1 src2 s
  | .kmul128 dst src1 src2 => Sys2Proof.Machine.execKmul128 dst src1 src2 s
  | .t6eval dst src1 src2 => Sys2Proof.Machine.execT6eval dst src1 src2 s
  | .t6interp dst src1 => Sys2Proof.Machine.execT6interp dst src1 s
  | .t6recon dst src1 => Sys2Proof.Machine.execT6recon dst src1 s
  | .mul768 dst src1 src2 => Sys2Proof.Machine.execMul768 dst src1 src2 s

end Sys2Proof.Machine
end

