-- ==== Sys2Proof/Machine/Issue.lean ====
section
/-! DEFINITION. The host's transactions (10_state.md R24), `issue` among them (30_encoding.md R60). -/

namespace Sys2Proof.Machine

/-- `issue(cmd)`: decode; a word that does not decode raises its error and has no other effect;
otherwise the command's meaning, which checks its ranges first (30_encoding.md R60). -/
def issue (cmd : Command) (s : State) : Host.Outcome State Fault Refusal :=
  match decode cmd with
  | .ok i => exec i s
  | .error e => .next (s.raise e)

/-- Perform one transaction of the host (10_state.md R24). -/
def perform (t : Transaction) (s : State) : Host.Outcome State Fault Refusal :=
  match t with
  | .reset => .next s.resetUnit
  | .pmemWrite a v => .next (s.pmemWrite a v)
  | .pmemRead a => .next (s.pmemRead a)
  | .issue cmd => issue cmd s
  | .statusRead => .next s.statusRead
  | .statusClear => .next s.statusClear

/-- The transaction begins: the host has it no longer pending, and what the last one returned is
gone (10_state.md R24; logs 2, 3). -/
def State.begin (s : State) (rest : List Transaction) : State :=
  { s with host := rest, reply := none }

/-- A state whose host issues a command next (log 2). -/
def State.issuing (s : State) (cmd : Command) : State :=
  { s with host := .issue cmd :: s.host }

end Sys2Proof.Machine
end

