-- ==== Sys2Proof/Machine/Step.lean ====
section
/-! DEFINITION. One step: the host's next transaction, to completion (10_state.md R24). -/

namespace Sys2Proof.Machine

/-- One step of the machine. With no transaction pending the unit is idle and nothing changes
("Between transactions no state changes", 10_state.md R24). -/
def step (s : State) : Host.Outcome State Fault Refusal :=
  match s.host with
  | [] => .next s
  | t :: rest => perform t (s.begin rest)

/-- The state whose next step issues the command of a table word. Nothing is fetched from memory:
a command is handed over by value (10_state.md R21; log 2). -/
def State.withFetchWord (s : State) (nbits w : Nat) : State := s.issuing (tableWord nbits w)

end Sys2Proof.Machine
end

