-- ==== Sys2Proof/Machine/Assembler.lean ====
section
/-! DEFINITION. The assembler syntax, the pseudo-command `VNEG`, and programs
(30_encoding.md R76, R77). Text is a list of characters. What R76 leaves open is settled in log 15
(DESIGN CHOICE, safe), named at each definition that settles it. -/

namespace Sys2Proof.Machine

/-- An operand: an unsigned number, or an immediate written `#` (30_encoding.md R76). -/
inductive AsmOperand where
  | num (n : Nat)
  | imm (c : Int)
  deriving DecidableEq, Repr

/-- The value of a decimal digit. -/
def decDigit (c : Char) : Option Nat :=
  if 48 ≤ c.toNat ∧ c.toNat ≤ 57 then some (c.toNat - 48) else none

/-- The value of a hexadecimal digit, of either case (DESIGN CHOICE, log 15). -/
def hexDigit (c : Char) : Option Nat :=
  if 97 ≤ c.toNat ∧ c.toNat ≤ 102 then some (c.toNat - 87)
  else if 65 ≤ c.toNat ∧ c.toNat ≤ 70 then some (c.toNat - 55)
  else decDigit c

/-- Digits read on from a value, the most significant first. -/
def readDigits (base : Nat) (digit : Char → Option Nat) : Nat → List Char → Option Nat
  | acc, [] => some acc
  | acc, c :: cs =>
    match digit c with
    | some d => readDigits base digit (base * acc + d) cs
    | none => none

/-- A number of at least one digit; leading zeros are allowed (DESIGN CHOICE, log 15). -/
def readNumber (base : Nat) (digit : Char → Option Nat) (cs : List Char) : Option Nat :=
  if cs = [] then none else readDigits base digit 0 cs

/-- Addresses and lengths are unsigned decimal or `0x` hexadecimal numbers; an immediate is `#` and
a signed decimal number (30_encoding.md R76). The spec does not say how the sign is written:
a negative immediate carries a minus sign as in R76's example, any other no sign, and an explicit
plus sign (`#+5`) is refused (DESIGN CHOICE, safe, log 15). -/
def readOperand : List Char → Option AsmOperand
  | '#' :: '-' :: cs => (readNumber 10 decDigit cs).map fun n => .imm (-(n : Int))
  | '#' :: cs => (readNumber 10 decDigit cs).map fun n => .imm n
  | '0' :: 'x' :: cs => (readNumber 16 hexDigit cs).map .num
  | cs => (readNumber 10 decDigit cs).map .num

/-- Text without the spaces around it; nothing else counts as a space (DESIGN CHOICE, log 15). -/
def trimSpaces (cs : List Char) : List Char :=
  ((cs.dropWhile (· = ' ')).reverse.dropWhile (· = ' ')).reverse

/-- The parts of a text between commas. -/
def splitCommas : List Char → List (List Char)
  | [] => [[]]
  | c :: cs =>
    match splitCommas cs with
    | [] => [[c]]
    | w :: ws => if c = ',' then [] :: w :: ws else (c :: w) :: ws

/-- The operands of a line. -/
def readOperands (cs : List Char) : Option (List AsmOperand) :=
  if trimSpaces cs = [] then some []
  else (splitCommas cs).mapM fun w => readOperand (trimSpaces w)

/-- The mnemonics of the opcode map (30_encoding.md R66). -/
def mnemonics : List (List Char × Op) :=
  [(['F', 'R', 'Z'], .frz), (['V', 'F', 'R', 'Z'], .vfrz), (['V', 'Z', 'E', 'R', 'O'], .vzero),
   (['V', 'C', 'O', 'P', 'Y'], .vcopy), (['V', 'A', 'D', 'D'], .vadd), (['V', 'A', 'C', 'C'], .vacc),
   (['V', 'S', 'M', 'U', 'L'], .vsmul), (['C', 'O', 'N', 'V', '4'], .conv4),
   (['K', 'M', 'U', 'L', '8'], .kmul8), (['K', 'M', 'U', 'L', '1', '6'], .kmul16),
   (['K', 'M', 'U', 'L', '3', '2'], .kmul32), (['K', 'M', 'U', 'L', '6', '4'], .kmul64),
   (['K', 'M', 'U', 'L', '1', '2', '8'], .kmul128), (['T', '6', 'E', 'V', 'A', 'L'], .t6eval),
   (['T', '6', 'I', 'N', 'T', 'E', 'R', 'P'], .t6interp),
   (['T', '6', 'R', 'E', 'C', 'O', 'N'], .t6recon), (['M', 'U', 'L', '7', '6', '8'], .mul768)]

/-- A number that fits the `w` bits of its field; another does not assemble (DESIGN CHOICE,
log 15). -/
def fitField (w n : Nat) : Option (BitVec w) :=
  if n < 2 ^ w then some (BitVec.ofNat w n) else none

/-- An immediate in `[-32768, 32767]` (30_encoding.md R64). -/
def fitImm (c : Int) : Option Imm :=
  if -32768 ≤ c ∧ c ≤ 32767 then some (BitVec.ofInt 16 c) else none

/-- A command from its mnemonic and operands, in the order `dst, src1, src2-or-immediate, len`,
fields the format does not use left out (30_encoding.md R76). -/
def assembleOp (op : Op) (operands : List AsmOperand) : Option Instr :=
  match formatOf op, operands with
  | .S, [.num d, .num a] | .T, [.num d, .num a] => do
    some (fieldsOf op (joinFields op (← fitField 13 d) (← fitField 13 a) 0 0))
  | .Z, [.num d, .num n] => do
    some (fieldsOf op (joinFields op (← fitField 13 d) 0 0 (← fitField 14 n)))
  | .U, [.num d, .num a, .num n] => do
    some (fieldsOf op (joinFields op (← fitField 13 d) (← fitField 13 a) 0 (← fitField 14 n)))
  | .B, [.num d, .num a, .num b, .num n] => do
    some (fieldsOf op (joinFields op (← fitField 13 d) (← fitField 13 a)
      (s2OfAddr (← fitField 13 b)) (← fitField 14 n)))
  | .I, [.num d, .num a, .imm c, .num n] => do
    some (fieldsOf op (joinFields op (← fitField 13 d) (← fitField 13 a) (← fitImm c)
      (← fitField 14 n)))
  | .M, [.num d, .num a, .num b] => do
    some (fieldsOf op (joinFields op (← fitField 13 d) (← fitField 13 a)
      (s2OfAddr (← fitField 13 b)) 0))
  | _, _ => none

/-- `VNEG dst, src1, len` is `VSMUL dst, src1, #-1, len` (30_encoding.md R77). -/
def vneg (dst src1 : Addr) (len : Len) : Instr := .vsmul dst src1 (-1) len

/-- Assemble one line: a mnemonic or `VNEG`, then its operands (30_encoding.md R76, R77). Mnemonics
are in capitals, and a line holds one command and nothing after it (DESIGN CHOICE, log 15). -/
def assembleLine (line : List Char) : Option Instr := do
  let text := trimSpaces line
  let name := text.takeWhile (· ≠ ' ')
  let operands ← readOperands (text.dropWhile (· ≠ ' '))
  if name = ['V', 'N', 'E', 'G'] then
    match operands with
    | [.num d, .num a, .num n] => some (vneg (← fitField 13 d) (← fitField 13 a) (← fitField 14 n))
    | _ => none
  else
    match mnemonics.find? fun m => m.1 = name with
    | some (_, op) => assembleOp op operands
    | none => none

/-- A program is a list of commands, issued top to bottom (30_encoding.md R76). -/
def issueProgram (program : List Instr) : List Transaction :=
  program.map fun i => .issue (encode i)

end Sys2Proof.Machine
end

