-- ==== Sys2Proof/Safety.lean ====
section
/-! DEFINITION. What counts as a legal state and a safe run, and the vocabulary of the claims: the
convolution of 00_scope.md R9, and what a command leaves unchanged. -/

namespace Sys2Proof

open Sys2Proof.Machine

/-- A `STATUS` word the unit can hold: bits 31:4 are 0, `ECODE` is 0 to 3, and `ECODE` is 0 exactly
when `ERR` is 0 (10_state.md R22). -/
abbrev StatusLegal (status : Word) : Prop :=
  status = packStatus (errOf status) (ecodeOf status) ∧ (ecodeOf status).toNat ≤ 3 ∧
    (ecodeOf status = 0 ↔ errOf status = false)

/-- A legal state: PMEM is in canonical form inside its 8192 words, and `STATUS` is legal. -/
abbrev Inv (s : State) : Prop := Memory.wf s.pmem ∧ StatusLegal s.status

/-- A safe run: no number of steps ends in a fault or a refusal. -/
def RunsOn (s : State) : Prop := ∀ n, ∃ t, core.run n s = .next t

/-- The frame of a command that stores to one range: every PMEM word outside the range, `STATUS`,
what the host has pending and what was returned to it, and the reset the unwritten words date from
are as before. -/
def FrameOutside (r : Range) (s t : State) : Prop :=
  (∀ a, ¬ inRange r a → t.readWord a = s.readWord a) ∧
    t.status = s.status ∧ t.resets = s.resets ∧ t.host = s.host ∧ t.reply = s.reply

/-- The word an elementwise command sees at address `a` when it processes element `i`: what it has
itself written there (the word of the final state `t`), or else the original word
(20_memory.md R47). -/
def seenAt (s t : State) (dst i a : Nat) : Word :=
  if dst ≤ a ∧ a < dst + i then t.readWord a else s.readWord a

/-- A command is refused with `BAD_RANGE` exactly when `bad` holds; otherwise it runs and `STATUS` is
not changed (30_encoding.md R60, R72). -/
def RefusedExactlyWhen (i : Instr) (bad : Prop) : Prop :=
  ∀ s, (bad → exec i s = .next (s.raise .badRange)) ∧
    (¬ bad → ∃ t, exec i s = .next t ∧ t.status = s.status)

/-- A Karatsuba command of level `v`: with its ranges inside PMEM it completes; for canonical
operands its destination takes the raw words of `kmul_n`; nothing else changes
(43_karatsuba.md R145 to R149). -/
def RunsKaratsuba (command : Addr → Addr → Addr → Instr) (v : Nat) : Prop :=
  ∀ (dst src1 src2 : Addr) (s : State),
    dst.toNat + 2 * levelLen v ≤ 8192 → src1.toNat + levelLen v ≤ 8192 →
    src2.toNat + levelLen v ≤ 8192 →
    ∃ t, exec (command dst src1 src2) s = .next t ∧
      (AllCanonical (s.memRead src1.toNat (levelLen v)) →
        AllCanonical (s.memRead src2.toNat (levelLen v)) →
        t.memRead dst.toNat (2 * levelLen v) =
          kmul v (s.memRead src1.toNat (levelLen v)) (s.memRead src2.toNat (levelLen v))) ∧
      FrameOutside ⟨dst.toNat, 2 * levelLen v⟩ s t

/-- `conv(f, g)[k]` in `Z` (00_scope.md R9); elements past the end count as 0. -/
def convCoeff (f g : List Word) (k : Nat) : Int :=
  ∑ i ∈ Finset.range (k + 1), elemInt f i * elemInt g (k - i)

/-- The upper bounds `U_n` of the Karatsuba levels, level 0 the base multiplier
(43_karatsuba.md R144). -/
def levelBound : Nat → Int
  | 0 => 39312
  | v + 1 => 2 * levelBound v + 9828

/-- The evaluation points with a finite value, by index (10_state.md R26). -/
def finitePoint (e : Nat) : Int := [0, 1, -1, 2, -2, 3, -3, 4, -4, 5].getD e 0

/-- The 11 by 11 evaluation matrix `V`: powers of the finite points, and the unit row of infinity
(10_state.md R27). -/
def evalMatrix (e k : Nat) : Int :=
  if e = 10 then (if k = 10 then 1 else 0) else finitePoint e ^ k

/-- `IMX` with the two unit rows that are not stored (10_state.md R27). -/
def fullImx (k e : Nat) : Int :=
  if k = 0 then (if e = 0 then 1 else 0)
  else if k = 10 then (if e = 10 then 1 else 0)
  else imx k e

end Sys2Proof
end

