-- ==== Sys2Proof/Certificates/Slice0/Obligations.lean ====
section
/-! DEFINITION. The statements for the provers, in the order of the spec's files. -/

open Sys2Proof Sys2Proof.Machine

/-! ### Encoding (30_encoding.md) -/

/-- Decoding the word of a command gives the command back, whatever its operands (R61, R63, R66). -/
def Obligations.DecodeInvertsEncode : Prop :=
  ∀ i : Instr, decode (encode i) = .ok i

/-- A word that decodes is the word of the command it decodes to: each command has one word, and no
bit of it is ignored (R61, R63, R73). -/
def Obligations.EncodeInvertsDecode : Prop :=
  ∀ (cmd : Command) (i : Instr), decode cmd = .ok i → encode i = cmd

/-- The opcode and the format of each of the seventeen mnemonics, and the mask of each format, are
those of the tables (R66, R63); and a word is an instance of a mnemonic exactly when it agrees with
the opcode under the mask of the mnemonic's format (R63). -/
def Obligations.InstanceExactlyUnderMask : Prop :=
  ((opcode .frz = 0x01 ∧ formatOf .frz = .S) ∧ (opcode .vfrz = 0x02 ∧ formatOf .vfrz = .Z) ∧
    (opcode .vzero = 0x03 ∧ formatOf .vzero = .Z) ∧ (opcode .vcopy = 0x04 ∧ formatOf .vcopy = .U) ∧
    (opcode .vadd = 0x05 ∧ formatOf .vadd = .B) ∧ (opcode .vacc = 0x06 ∧ formatOf .vacc = .U) ∧
    (opcode .vsmul = 0x07 ∧ formatOf .vsmul = .I) ∧ (opcode .conv4 = 0x08 ∧ formatOf .conv4 = .M) ∧
    (opcode .kmul8 = 0x09 ∧ formatOf .kmul8 = .M) ∧ (opcode .kmul16 = 0x0A ∧ formatOf .kmul16 = .M) ∧
    (opcode .kmul32 = 0x0B ∧ formatOf .kmul32 = .M) ∧ (opcode .kmul64 = 0x0C ∧ formatOf .kmul64 = .M) ∧
    (opcode .kmul128 = 0x0D ∧ formatOf .kmul128 = .M) ∧ (opcode .t6eval = 0x0E ∧ formatOf .t6eval = .M) ∧
    (opcode .t6interp = 0x0F ∧ formatOf .t6interp = .T) ∧ (opcode .t6recon = 0x10 ∧ formatOf .t6recon = .T) ∧
    (opcode .mul768 = 0x11 ∧ formatOf .mul768 = .M)) ∧
  (maskOf .S = 0xFF0000003FFFFFFF ∧ maskOf .Z = 0xFF0007FFFFFFC000 ∧
    maskOf .U = 0xFF0000003FFFC000 ∧ maskOf .B = 0xFF00000038000000 ∧
    maskOf .I = 0xFF00000000000000 ∧ maskOf .M = 0xFF00000038003FFF ∧
    maskOf .T = 0xFF0000003FFFFFFF) ∧
  ∀ (cmd : Command) (op : Op),
    (∃ i, decode cmd = .ok i ∧ opIn i = op) ↔
      cmd &&& maskOf (formatOf op) = (opcode op).setWidth 64 <<< 56

/-- Opcode 00 and opcodes 12 to FF select no command: the word raises `ILLEGAL_OPCODE` whatever its
other fields hold (R71, R74). -/
def Obligations.IllegalOpcodesRefused : Prop :=
  ∀ (cmd : Command) (s : State), opField cmd = 0 ∨ 0x12 ≤ (opField cmd).toNat →
    issue cmd s = .next (s.raise .illegalOpcode)

/-- A legal opcode with a 1 in a reserved bit of its format raises `RESERVED_FIELD`, whatever its
ranges are (R73, R74). -/
def Obligations.ReservedBitsRefused : Prop :=
  ∀ (cmd : Command) (op : Op) (s : State), opField cmd = opcode op →
    cmd &&& maskOf (formatOf op) ≠ (opcode op).setWidth 64 <<< 56 →
    issue cmd s = .next (s.raise .reservedField)

/-- The range check, command by command: `BAD_RANGE` exactly when the format uses `len` and it is 0,
or an operand range, its size as the opcode map gives it, ends above word 8191; otherwise the
command runs, overlap or not (R72 with the sizes of R66; FRZ never fails it, 60_exceptions.md
R211). -/
def Obligations.BadRangeExactly : Prop :=
  ∀ (d a b : Addr) (n : Len) (c : Imm),
    RefusedExactlyWhen (.frz d a) False ∧
    RefusedExactlyWhen (.vfrz d n) (n.toNat = 0 ∨ d.toNat + n.toNat > 8192) ∧
    RefusedExactlyWhen (.vzero d n) (n.toNat = 0 ∨ d.toNat + n.toNat > 8192) ∧
    RefusedExactlyWhen (.vcopy d a n)
      (n.toNat = 0 ∨ d.toNat + n.toNat > 8192 ∨ a.toNat + n.toNat > 8192) ∧
    RefusedExactlyWhen (.vadd d a b n)
      (n.toNat = 0 ∨ d.toNat + n.toNat > 8192 ∨ a.toNat + n.toNat > 8192 ∨
        b.toNat + n.toNat > 8192) ∧
    RefusedExactlyWhen (.vacc d a n)
      (n.toNat = 0 ∨ d.toNat + n.toNat > 8192 ∨ a.toNat + n.toNat > 8192) ∧
    RefusedExactlyWhen (.vsmul d a c n)
      (n.toNat = 0 ∨ d.toNat + n.toNat > 8192 ∨ a.toNat + n.toNat > 8192) ∧
    RefusedExactlyWhen (.conv4 d a b)
      (d.toNat + 8 > 8192 ∨ a.toNat + 4 > 8192 ∨ b.toNat + 4 > 8192) ∧
    RefusedExactlyWhen (.kmul8 d a b)
      (d.toNat + 16 > 8192 ∨ a.toNat + 8 > 8192 ∨ b.toNat + 8 > 8192) ∧
    RefusedExactlyWhen (.kmul16 d a b)
      (d.toNat + 32 > 8192 ∨ a.toNat + 16 > 8192 ∨ b.toNat + 16 > 8192) ∧
    RefusedExactlyWhen (.kmul32 d a b)
      (d.toNat + 64 > 8192 ∨ a.toNat + 32 > 8192 ∨ b.toNat + 32 > 8192) ∧
    RefusedExactlyWhen (.kmul64 d a b)
      (d.toNat + 128 > 8192 ∨ a.toNat + 64 > 8192 ∨ b.toNat + 64 > 8192) ∧
    RefusedExactlyWhen (.kmul128 d a b)
      (d.toNat + 256 > 8192 ∨ a.toNat + 128 > 8192 ∨ b.toNat + 128 > 8192) ∧
    RefusedExactlyWhen (.t6eval d a b)
      (d.toNat + 2816 > 8192 ∨ a.toNat + 768 > 8192 ∨ b.toNat + 768 > 8192) ∧
    RefusedExactlyWhen (.t6interp d a) (d.toNat + 2816 > 8192 ∨ a.toNat + 2816 > 8192) ∧
    RefusedExactlyWhen (.t6recon d a) (d.toNat + 1536 > 8192 ∨ a.toNat + 2816 > 8192) ∧
    RefusedExactlyWhen (.mul768 d a b)
      (d.toNat + 1536 > 8192 ∨ a.toNat + 768 > 8192 ∨ b.toNat + 768 > 8192)

/-- Words written out from the layout of R61 decode to the commands they stand for (R76). -/
def Obligations.SampleWordsDecode : Prop :=
  decode 0x0100080000000000 = .ok (.frz 1 0) ∧
  decode 0x0200280000000003 = .ok (.vfrz 5 3) ∧
  decode 0x0600800000000008 = .ok (.vacc 16 0 8) ∧
  decode 0x0500800000020008 = .ok (.vadd 16 0 8 8) ∧
  decode 0x070320193FFFC100 = .ok (.vsmul 100 100 (-1) 256) ∧
  decode 0x1130000000C00000 = .ok (.mul768 1536 0 768) ∧
  decode 0x1000040000000000 = .ok (.t6recon 0 4096)

/-! ### Transactions and steps (10_state.md R24; 30_encoding.md R60) -/

/-- A step issues the host's next word, on the state in which the host has the transaction no longer
pending and no word is returned to it: when the word decodes, the step is the meaning of the command
it decodes to, which is error entry with `BAD_RANGE` when its ranges fail; when the word does not
decode, the step is error entry with the error of decoding (30_encoding.md R60; 60_exceptions.md
R213; the pending list and the returned word are the model's, logs 2 and 3). -/
def Obligations.StepRunsDecodedCommand : Prop :=
  ∀ (s : State) (cmd : Command) (rest : List Transaction), s.host = .issue cmd :: rest →
    (∀ i : Instr, decode cmd = .ok i →
      step s = exec i { s with host := rest, reply := none }) ∧
    (∀ i : Instr, decode cmd = .ok i → ¬ i.WellFormed →
      step s = .next ({ s with host := rest, reply := none }.raise .badRange)) ∧
    (∀ e : CmdError, decode cmd = .error e →
      step s = .next ({ s with host := rest, reply := none }.raise e))

/-- `pmem_write(a, v)` writes that word and changes nothing else (20_memory.md R40). -/
def Obligations.PmemWriteStoresOneWord : Prop :=
  ∀ (s : State) (a : Addr) (v : Word) (rest : List Transaction),
    s.host = .pmemWrite a v :: rest →
    ∃ t, step s = .next t ∧ t.readWord a.toNat = v ∧
      (∀ b, b ≠ a.toNat → t.readWord b = s.readWord b) ∧
      t.status = s.status ∧ t.resets = s.resets ∧ t.draws = s.draws ∧ t.host = rest

/-- `pmem_read(a)` returns the word at `a` and has no side effect; so two reads with no write
between them return the same word (20_memory.md R41). -/
def Obligations.PmemReadReturnsTheWord : Prop :=
  ∀ (s : State) (a : Addr) (rest : List Transaction),
    s.host = .pmemRead a :: rest →
    ∃ t, step s = .next t ∧ t.reply = some (s.readWord a.toNat) ∧
      (∀ b, t.readWord b = s.readWord b) ∧
      t.status = s.status ∧ t.resets = s.resets ∧ t.draws = s.draws ∧ t.host = rest

/-- `status_read()` returns `ERR` in bit 0, `ECODE` in bits 3:1 and 0 in bits 31:4, and changes
nothing; in a legal state that is the `STATUS` word itself (10_state.md R22, R24). -/
def Obligations.StatusReadReturnsFields : Prop :=
  ∀ (s : State) (rest : List Transaction), s.host = .statusRead :: rest →
    ∃ t w, step s = .next t ∧ t.reply = some w ∧
      w.toNat = (if errOf s.status then 1 else 0) + 2 * (ecodeOf s.status).toNat ∧
      (StatusLegal s.status → w = s.status) ∧
      (∀ b, t.readWord b = s.readWord b) ∧ t.status = s.status ∧ t.host = rest

/-- `status_clear()` sets `STATUS` to 0, so `ERR` and `ECODE` are 0, and changes nothing else
(60_exceptions.md R215). -/
def Obligations.StatusClearClearsErrors : Prop :=
  ∀ (s : State) (rest : List Transaction), s.host = .statusClear :: rest →
    ∃ t, step s = .next t ∧ t.status = 0 ∧ errOf t.status = false ∧ ecodeOf t.status = 0 ∧
      (∀ b, t.readWord b = s.readWord b) ∧ t.resets = s.resets ∧ t.draws = s.draws ∧ t.host = rest

/-- `reset()` sets `STATUS` to 0 and leaves every PMEM word at the free value drawn for it at this
reset, none of the old contents kept (70_reset_and_hazards.md R230; that the contents are a free
value of the reset's number is the model's choice, log 4). -/
def Obligations.ResetTransactionClearsAll : Prop :=
  ∀ (s : State) (rest : List Transaction), s.host = .reset :: rest →
    ∃ t, step s = .next t ∧ t.status = 0 ∧ t.pmem = [] ∧ t.resets = s.resets + 1 ∧
      (∀ a, t.readWord a = Config.resetWord (s.resets + 1) a) ∧ t.host = rest

/-- Right after reset `STATUS` is 0, all its fields included (10_state.md R30), and no PMEM word has
been written (R31). -/
def Obligations.ResetStateStatusZero : Prop :=
  State.reset.status = 0 ∧ errOf State.reset.status = false ∧ ecodeOf State.reset.status = 0 ∧
    statusWord State.reset = 0 ∧ State.reset.pmem = []

/-- Between transactions no state changes (10_state.md R24). -/
def Obligations.IdleChangesNothing : Prop :=
  ∀ s : State, s.host = [] → step s = .next s

/-- Nothing ever stops the machine: from every state, every number of steps ends in a next state
(60_exceptions.md R210, R213; 46_top.md R200 "total"). -/
def Obligations.EveryRunGoesOn : Prop :=
  ∀ s : State, RunsOn s

/-! ### Legal states -/

/-- The state after reset is legal. -/
def Obligations.ResetStateIsLegal : Prop := Inv State.reset

/-- Every step keeps the state legal: PMEM stays in canonical form and lists no address above 8191,
so no command and no transaction ever stores outside PMEM; and `STATUS` keeps bits 31:4 at 0, never
holds a code from 4 to 7, and has a code exactly when `ERR` is set (10_state.md R22, R23). -/
def Obligations.StepKeepsStateLegal : Prop :=
  ∀ s t : State, Inv s → step s = .next t → Inv t

/-! ### Errors (60_exceptions.md) -/

/-- Error entry: `ECODE` takes the code of the error if `ERR` was 0 and keeps its value otherwise;
`ERR` is 1; PMEM and everything else is unchanged; the issue of a word that does not decode
completes with exactly that (R211, R213). -/
def Obligations.ErrorEntryTouchesOnlyStatus : Prop :=
  (codeOf .illegalOpcode).toNat = 1 ∧ (codeOf .reservedField).toNat = 2 ∧
  (codeOf .badRange).toNat = 3 ∧
  (∀ (s : State) (e : CmdError),
    errOf (s.raise e).status = true ∧
    (errOf s.status = false → ecodeOf (s.raise e).status = codeOf e) ∧
    (errOf s.status = true → ecodeOf (s.raise e).status = ecodeOf s.status) ∧
    (s.raise e).pmem = s.pmem ∧ (s.raise e).resets = s.resets ∧ (s.raise e).draws = s.draws ∧
    (s.raise e).host = s.host ∧ (s.raise e).reply = s.reply) ∧
  (∀ (cmd : Command) (e : CmdError) (s : State), decode cmd = .error e →
    issue cmd s = .next (s.raise e))

/-- `ERR` is sticky and blocks nothing: a command whose ranges are legal has the same effect
whatever `STATUS` holds, and leaves `STATUS` as it was (R216). Where the effect has UNSPEC words, that
they too are the same in both runs is the model's choice: a free word is a function of the occasion
it is drawn at, the same in the two runs compared (log 5). -/
def Obligations.ErrorsAreSticky : Prop :=
  ∀ (i : Instr) (s : State) (v : Word), i.WellFormed →
    ∃ t, exec i s = .next t ∧ t.status = s.status ∧
      exec i { s with status := v } = .next { t with status := v }

/-- A second refused command leaves `STATUS` unchanged in a legal state: the first code is kept
(R216). -/
def Obligations.SecondErrorKeepsFirstCode : Prop :=
  ∀ (s : State) (e e' : CmdError), (StatusLegal s.status → errOf s.status = true →
    (s.raise e).status = s.status) ∧ ((s.raise e).raise e').status = (s.raise e).status

/-- A step that starts with `ERR` set in a legal state leaves `STATUS` as it is, whatever the host
does next, unless that is `status_clear()` or `reset()` (R215, R216). -/
def Obligations.OnlyClearOrResetClearsErrors : Prop :=
  ∀ s t : State, StatusLegal s.status → errOf s.status = true → step s = .next t →
    t.status = s.status ∨ ∃ rest, s.host = .statusClear :: rest ∨ s.host = .reset :: rest

/-! ### The reduction function (40_reduction.md) -/

/-- `reduce` gives the unique integer in [0, 9829) congruent to its argument, for every argument
strictly inside the domain, whatever the free word is (R90). -/
def Obligations.ReduceMeetsContract : Prop :=
  ∀ (free : Word) (x : Int), -165191050 < x → x < 165191050 →
    (reduce free x).toInt = x % 9829 ∧ 0 ≤ (reduce free x).toInt ∧ (reduce free x).toInt < 9829 ∧
    ∀ y : Int, 0 ≤ y → y < 9829 → y % 9829 = x % 9829 → y = (reduce free x).toInt

/-- The reference datapath, on 32-bit words, has the value of `reduce` on the whole domain
(R91). -/
def Obligations.DatapathHasValueOfReduce : Prop :=
  ∀ (free x : Word), InDomain x.toInt → datapath x = reduce free x.toInt

/-- The ranges inside the reference datapath over the whole domain; each intermediate is the integer
the datapath's formula gives, so no intermediate wraps (R92). -/
def Obligations.DatapathRanges : Prop :=
  ∀ (x q1 x1 q2 x2 : Word), InDomain x.toInt →
    q1 = (13 * x).sshiftRight 17 → x1 = datapathStep1 x →
    q2 = (427 * x1 + 2097152).sshiftRight 22 → x2 = datapathStep2 x1 →
    (13 * x).toInt = 13 * x.toInt ∧ -2147483637 ≤ (13 * x).toInt ∧ (13 * x).toInt ≤ 2147483637 ∧
    -16384 ≤ q1.toInt ∧ q1.toInt ≤ 16383 ∧ (9829 * q1).toInt = 9829 * q1.toInt ∧
    x1.toInt = x.toInt - 9829 * q1.toInt ∧ -4152713 ≤ x1.toInt ∧ x1.toInt ≤ 4162542 ∧
    (427 * x1).toInt = 427 * x1.toInt ∧
    (427 * x1 + 2097152).toInt = 427 * x1.toInt + 2097152 ∧
    -1771111299 ≤ (427 * x1 + 2097152).toInt ∧ (427 * x1 + 2097152).toInt ≤ 1779502586 ∧
    (9829 * q2).toInt = 9829 * q2.toInt ∧ x2.toInt = x1.toInt - 9829 * q2.toInt ∧
    -7571 ≤ x2.toInt ∧ x2.toInt ≤ 7565 ∧
    (datapath x).toInt = x2.toInt + (if x2.toInt < 0 then 9829 else 0) ∧
    0 ≤ (datapath x).toInt ∧ (datapath x).toInt ≤ 9828

/-- Laws of `reduce`: its values are in [0, 9828], which is in the domain, and it is idempotent; it
is the identity on canonical integers; unchanged by multiples of 9829 inside the domain; negation;
the boundary values (R98). -/
def Obligations.ReduceLaws : Prop :=
  (∀ (u v : Word) (x : Int), InDomain x → 0 ≤ (reduce v x).toInt ∧ (reduce v x).toInt ≤ 9828 ∧
    InDomain (reduce v x).toInt ∧ reduce u (reduce v x).toInt = reduce v x) ∧
  (∀ (u : Word) (y : Int), 0 ≤ y → y < 9829 → (reduce u y).toInt = y) ∧
  (∀ (u v : Word) (x m : Int), InDomain x → InDomain (x + 9829 * m) →
    reduce u (x + 9829 * m) = reduce v x) ∧
  (∀ (u v : Word) (x : Int), InDomain x →
    (reduce u (-x)).toInt = (9829 - (reduce v x).toInt) % 9829) ∧
  (∀ u : Word, (reduce u 165191049).toInt = 4875 ∧ (reduce u (-165191049)).toInt = 4954)

/-- `FRZ` completes from every state, stores the residue of a source inside the domain, and changes
nothing outside its one destination word (R96). -/
def Obligations.FrzReducesOneWord : Prop :=
  ∀ (dst src1 : Addr) (s : State), ∃ t, exec (.frz dst src1) s = .next t ∧
    (InDomain (s.readWord src1.toNat).toInt →
      (t.readWord dst.toNat).toInt = (s.readWord src1.toNat).toInt % 9829) ∧
    FrameOutside ⟨dst.toNat, 1⟩ s t

/-- `VFRZ` completes for every legal range and replaces each element inside the domain by its
residue, elements outside the domain notwithstanding (R97). -/
def Obligations.VfrzCanonicalizesInPlace : Prop :=
  ∀ (dst : Addr) (len : Len) (s : State), len.toNat ≠ 0 → dst.toNat + len.toNat ≤ 8192 →
    ∃ t, exec (.vfrz dst len) s = .next t ∧
      (∀ i < len.toNat, InDomain (s.readWord (dst.toNat + i)).toInt →
        (t.readWord (dst.toNat + i)).toInt = (s.readWord (dst.toNat + i)).toInt % 9829) ∧
      FrameOutside ⟨dst.toNat, len.toNat⟩ s t

/-! ### The primitives (41_primitives.md; element order 20_memory.md R47, R48) -/

/-- `VZERO` completes for every legal range and stores 0 in it (R111). -/
def Obligations.VzeroStoresZeros : Prop :=
  ∀ (dst : Addr) (len : Len) (s : State), len.toNat ≠ 0 → dst.toNat + len.toNat ≤ 8192 →
    ∃ t, exec (.vzero dst len) s = .next t ∧
      (∀ i < len.toNat, t.readWord (dst.toNat + i) = 0) ∧
      FrameOutside ⟨dst.toNat, len.toNat⟩ s t

/-- `VCOPY` completes for every legal range, overlapping or not, and copies in ascending order: each
element is the word then seen at its source (R112, R47). -/
def Obligations.VcopyCopiesAscending : Prop :=
  ∀ (dst src1 : Addr) (len : Len) (s : State), len.toNat ≠ 0 →
    dst.toNat + len.toNat ≤ 8192 → src1.toNat + len.toNat ≤ 8192 →
    ∃ t, exec (.vcopy dst src1 len) s = .next t ∧
      (∀ i < len.toNat, t.readWord (dst.toNat + i) = seenAt s t dst.toNat i (src1.toNat + i)) ∧
      FrameOutside ⟨dst.toNat, len.toNat⟩ s t

/-- `VADD` completes for every legal range, overlapping or not: each element whose sum, taken in
`Z`, is inside the domain is the residue of the sum of the words then seen (R113, R47). -/
def Obligations.VaddAddsAndReduces : Prop :=
  ∀ (dst src1 src2 : Addr) (len : Len) (s : State), len.toNat ≠ 0 →
    dst.toNat + len.toNat ≤ 8192 → src1.toNat + len.toNat ≤ 8192 →
    src2.toNat + len.toNat ≤ 8192 →
    ∃ t, exec (.vadd dst src1 src2 len) s = .next t ∧
      (∀ i < len.toNat,
        InDomain ((seenAt s t dst.toNat i (src1.toNat + i)).toInt +
          (seenAt s t dst.toNat i (src2.toNat + i)).toInt) →
        (t.readWord (dst.toNat + i)).toInt =
          ((seenAt s t dst.toNat i (src1.toNat + i)).toInt +
            (seenAt s t dst.toNat i (src2.toNat + i)).toInt) % 9829) ∧
      FrameOutside ⟨dst.toNat, len.toNat⟩ s t

/-- `VACC` completes for every legal range, overlapping or not: each element is the wrapped 32-bit
sum of the old element and the word then seen at its source, not reduced (R114, R47). -/
def Obligations.VaccAccumulatesWrapping : Prop :=
  ∀ (dst src1 : Addr) (len : Len) (s : State), len.toNat ≠ 0 →
    dst.toNat + len.toNat ≤ 8192 → src1.toNat + len.toNat ≤ 8192 →
    ∃ t, exec (.vacc dst src1 len) s = .next t ∧
      (∀ i < len.toNat, t.readWord (dst.toNat + i) =
        wrap32 ((s.readWord (dst.toNat + i)).toInt +
          (seenAt s t dst.toNat i (src1.toNat + i)).toInt)) ∧
      FrameOutside ⟨dst.toNat, len.toNat⟩ s t

/-- `VSMUL` completes for every legal range, overlapping or not: each element whose product with the
signed immediate, taken in `Z`, is inside the domain is the residue of the product (R115, R47;
30_encoding.md R64). -/
def Obligations.VsmulScalesAndReduces : Prop :=
  ∀ (dst src1 : Addr) (imm : Imm) (len : Len) (s : State), len.toNat ≠ 0 →
    dst.toNat + len.toNat ≤ 8192 → src1.toNat + len.toNat ≤ 8192 →
    ∃ t, exec (.vsmul dst src1 imm len) s = .next t ∧
      (∀ i < len.toNat,
        InDomain (imm.toInt * (seenAt s t dst.toNat i (src1.toNat + i)).toInt) →
        (t.readWord (dst.toNat + i)).toInt =
          (imm.toInt * (seenAt s t dst.toNat i (src1.toNat + i)).toInt) % 9829) ∧
      FrameOutside ⟨dst.toNat, len.toNat⟩ s t

/-- Safe overlap in elementwise commands: when the destination starts at a source or below it, or at
or above its end, the result is the elementwise function of the original words, the same as with
disjoint buffers (20_memory.md R48 (a), (b)). -/
def Obligations.SafeOverlapUsesOriginalWords : Prop :=
  ∀ (dst src1 src2 : Addr) (imm : Imm) (len : Len) (s : State), len.toNat ≠ 0 →
    dst.toNat + len.toNat ≤ 8192 → src1.toNat + len.toNat ≤ 8192 →
    src2.toNat + len.toNat ≤ 8192 →
    dst.toNat ≤ src1.toNat ∨ src1.toNat + len.toNat ≤ dst.toNat →
    dst.toNat ≤ src2.toNat ∨ src2.toNat + len.toNat ≤ dst.toNat →
    (∃ t, exec (.vcopy dst src1 len) s = .next t ∧
      ∀ i < len.toNat, t.readWord (dst.toNat + i) = s.readWord (src1.toNat + i)) ∧
    (∃ t, exec (.vadd dst src1 src2 len) s = .next t ∧
      ∀ i < len.toNat, InDomain ((s.readWord (src1.toNat + i)).toInt +
          (s.readWord (src2.toNat + i)).toInt) →
        (t.readWord (dst.toNat + i)).toInt = ((s.readWord (src1.toNat + i)).toInt +
          (s.readWord (src2.toNat + i)).toInt) % 9829) ∧
    (∃ t, exec (.vacc dst src1 len) s = .next t ∧
      ∀ i < len.toNat, t.readWord (dst.toNat + i) =
        wrap32 ((s.readWord (dst.toNat + i)).toInt + (s.readWord (src1.toNat + i)).toInt)) ∧
    (∃ t, exec (.vsmul dst src1 imm len) s = .next t ∧
      ∀ i < len.toNat, InDomain (imm.toInt * (s.readWord (src1.toNat + i)).toInt) →
        (t.readWord (dst.toNat + i)).toInt =
          (imm.toInt * (s.readWord (src1.toNat + i)).toInt) % 9829)

/-- Copying upwards over itself repeats the first `dst - src1` source words through the destination
(R112; 20_memory.md R48 (c)). -/
def Obligations.CopyUpwardRepeats : Prop :=
  ∀ (dst src1 : Addr) (len : Len) (s : State), len.toNat ≠ 0 →
    dst.toNat + len.toNat ≤ 8192 → src1.toNat < dst.toNat →
    dst.toNat < src1.toNat + len.toNat →
    ∃ t, exec (.vcopy dst src1 len) s = .next t ∧
      ∀ i < len.toNat, t.readWord (dst.toNat + i) =
        s.readWord (src1.toNat + i % (dst.toNat - src1.toNat))

/-- `VNEG` completes for every legal range and stores `(9829 - x) mod 9829`, 0 for a multiple of
9829 (R116; 30_encoding.md R77). -/
def Obligations.VnegNegates : Prop :=
  ∀ (dst src1 : Addr) (len : Len) (s : State), len.toNat ≠ 0 →
    dst.toNat + len.toNat ≤ 8192 → src1.toNat + len.toNat ≤ 8192 →
    ∃ t, exec (vneg dst src1 len) s = .next t ∧
      ∀ i < len.toNat, InDomain (seenAt s t dst.toNat i (src1.toNat + i)).toInt →
        (t.readWord (dst.toNat + i)).toInt =
          (9829 - (seenAt s t dst.toNat i (src1.toNat + i)).toInt) % 9829 ∧
        (9829 ∣ (seenAt s t dst.toNat i (src1.toNat + i)).toInt →
          t.readWord (dst.toNat + i) = 0) ∧
        Canonical (t.readWord (dst.toNat + i))

/-- The accumulation bound, one `VACC` at a time: `VACC` completes for every legal range, overlapping
or not; an element that holds the exact sum of at most 16807 canonical words (of none, when zeroed)
and sees a canonical word at its source holds afterwards the exact sum of one word more, inside the
domain of `reduce`; and an element that holds the sum of 16808 words of 9828 and sees another 9828
holds afterwards the sum of 16809 of them, outside the domain (R117, R114). -/
def Obligations.AccumulationBudget : Prop :=
  ∀ (dst src1 : Addr) (len : Len) (s : State), len.toNat ≠ 0 →
    dst.toNat + len.toNat ≤ 8192 → src1.toNat + len.toNat ≤ 8192 →
    ∃ t, exec (.vacc dst src1 len) s = .next t ∧
      ∀ i < len.toNat, ∀ w, w = seenAt s t dst.toNat i (src1.toNat + i) →
        (∀ l : List Word, AllCanonical l → l.length ≤ 16807 →
          (s.readWord (dst.toNat + i)).toInt = (l.map BitVec.toInt).sum → Canonical w →
          (t.readWord (dst.toNat + i)).toInt = ((l ++ [w]).map BitVec.toInt).sum ∧
          InDomain (t.readWord (dst.toNat + i)).toInt) ∧
        ((s.readWord (dst.toNat + i)).toInt = 16808 * 9828 → w = 9828 →
          (t.readWord (dst.toNat + i)).toInt = 16809 * 9828 ∧
          ¬ InDomain (t.readWord (dst.toNat + i)).toInt)

/-! ### The schoolbook convolver (42_schoolbook.md) -/

/-- `CONV4` completes for every legal range; a word whose products are all inside the domain is the
sum of their residues, canonical operands or not; nothing outside the destination changes
(R131). -/
def Obligations.Conv4SumsReducedProducts : Prop :=
  ∀ (dst src1 src2 : Addr) (s : State), dst.toNat + 8 ≤ 8192 → src1.toNat + 4 ≤ 8192 →
    src2.toNat + 4 ≤ 8192 →
    ∃ t, exec (.conv4 dst src1 src2) s = .next t ∧
      (∀ k < 8,
        (∀ i < 4, ∀ j < 4, i + j = k →
          InDomain ((s.readWord (src1.toNat + i)).toInt * (s.readWord (src2.toNat + j)).toInt)) →
        (t.readWord (dst.toNat + k)).toInt =
          ∑ i ∈ Finset.range 4, ∑ j ∈ Finset.range 4, if i + j = k then
            ((s.readWord (src1.toNat + i)).toInt * (s.readWord (src2.toNat + j)).toInt) % 9829
            else 0) ∧
      FrameOutside ⟨dst.toNat, 8⟩ s t

/-- On canonical operands `CONV4` stores words congruent to the convolution, each within
`min(k+1, 7-k) * 9828`, the last one 0 (R130, R132). -/
def Obligations.Conv4Convolves : Prop :=
  ∀ (dst src1 src2 : Addr) (s : State), dst.toNat + 8 ≤ 8192 → src1.toNat + 4 ≤ 8192 →
    src2.toNat + 4 ≤ 8192 → AllCanonical (s.memRead src1.toNat 4) →
    AllCanonical (s.memRead src2.toNat 4) →
    ∃ t, exec (.conv4 dst src1 src2) s = .next t ∧
      ∀ k < 8, (t.readWord (dst.toNat + k)).toInt % 9829 =
          convCoeff (s.memRead src1.toNat 4) (s.memRead src2.toNat 4) k % 9829 ∧
        0 ≤ (t.readWord (dst.toNat + k)).toInt ∧
        (t.readWord (dst.toNat + k)).toInt ≤ (min (k + 1) (7 - k) : Nat) * 9828

/-! ### The Karatsuba tree (43_karatsuba.md) -/

/-- The closed form of a level's output on canonical operands, in `Z`, so no sum wraps; every word
of it is at least 0 and the last one is 0 (R143). -/
def Obligations.KaratsubaClosedForm : Prop :=
  ∀ (v : Nat) (f g a b c : List Word), v < 5 → AllCanonical f → AllCanonical g →
    f.length = levelLen (v + 1) → g.length = levelLen (v + 1) →
    a = kmul v (f.take (levelLen v)) (g.take (levelLen v)) →
    b = kmul v (f.drop (levelLen v)) (g.drop (levelLen v)) →
    c = kmul v (seqAdd (f.take (levelLen v)) (f.drop (levelLen v)))
      (seqAdd (g.take (levelLen v)) (g.drop (levelLen v))) →
    ∀ k < 4 * levelLen v, elemInt (kmul (v + 1) f g) k =
      (if k < 2 * levelLen v then elemInt a k else elemInt b (k - 2 * levelLen v)) +
      (if levelLen v ≤ k ∧ k < 3 * levelLen v then
        (9829 - (elemInt a (k - levelLen v) + elemInt b (k - levelLen v)) % 9829) % 9829 +
          elemInt c (k - levelLen v)
        else 0) ∧
      0 ≤ elemInt (kmul (v + 1) f g) k ∧
      elemInt (kmul (v + 1) f g) (4 * levelLen v - 1) = 0 ∧ elemInt b (2 * levelLen v - 1) = 0

/-- The bounds of the levels: on canonical operands every word of `kmul_n` is between 0 and `U_n`,
and the last one is 0; the bounds are those of the table, and twice a bound is inside the domain of
`reduce` (R143, R144). -/
def Obligations.KaratsubaBounds : Prop :=
  (List.range 6).map levelBound = [39312, 88452, 186732, 383292, 776412, 1562652] ∧
  (∀ v ≤ 5, InDomain (2 * levelBound v)) ∧
  ∀ (v : Nat) (f g : List Word), v ≤ 5 → AllCanonical f → AllCanonical g →
    f.length = levelLen v → g.length = levelLen v →
    (kmul v f g).length = 2 * levelLen v ∧
    (∀ k, 0 ≤ elemInt (kmul v f g) k ∧ elemInt (kmul v f g) k ≤ levelBound v) ∧
    elemInt (kmul v f g) (2 * levelLen v - 1) = 0

/-- Every Karatsuba level computes the convolution modulo 9829 of canonical operands (R140). -/
def Obligations.KaratsubaConvolves : Prop :=
  ∀ (v : Nat) (f g : List Word), v ≤ 5 → AllCanonical f → AllCanonical g →
    f.length = levelLen v → g.length = levelLen v →
    ∀ k < 2 * levelLen v, elemInt (kmul v f g) k % 9829 = convCoeff f g k % 9829

/-- The five Karatsuba commands complete for every legal range, store the raw words of their level
for canonical operands, and change nothing outside their destination (R145 to R149, R150). -/
def Obligations.KaratsubaCommandsRun : Prop :=
  RunsKaratsuba .kmul8 1 ∧ RunsKaratsuba .kmul16 2 ∧ RunsKaratsuba .kmul32 3 ∧
    RunsKaratsuba .kmul64 4 ∧ RunsKaratsuba .kmul128 5 ∧
    levelLen 1 = 8 ∧ levelLen 2 = 16 ∧ levelLen 3 = 32 ∧ levelLen 4 = 64 ∧ levelLen 5 = 128

/-! ### The Toom-6 evaluator (44_toom6_eval.md) -/

/-- The rows of `EVT`: the powers of the nine finite non-zero points, block 0 alone for the point 0,
block 5 alone for infinity (10_state.md R26). -/
def Obligations.EvaluationTableIsPowers : Prop :=
  (∀ e < 10, ∀ b < 6, evt e b = finitePoint e ^ b) ∧
  (∀ b < 6, evt 10 b = if b = 5 then 1 else 0)

/-- An operand at a point: the weighted sum of the blocks modulo 9829 at the nine computed points,
its exact value inside the domain of `reduce`; block 0 and block 5 themselves at the limit points
(R162, R163). -/
def Obligations.OperandAtPoint : Prop :=
  ∀ f : List Word, AllCanonical f → f.length = 768 →
    (∀ e, 1 ≤ e → e ≤ 9 → ∀ i < 128,
      |∑ b ∈ Finset.range 6, finitePoint e ^ b * elemInt f (128 * b + i)| ≤ 38388168 ∧
      elemInt (atPoint e f) i =
        (∑ b ∈ Finset.range 6, finitePoint e ^ b * elemInt f (128 * b + i)) % 9829) ∧
    (∀ i < 128, elem (atPoint 0 f) i = elem f i ∧ elem (atPoint 10 f) i = elem f (640 + i))

/-- `T6EVAL` completes for every legal range; for canonical operands it stores at offset `256e` the
canonical product of the two operands at point `e`; nothing outside the destination changes (R164,
R165). -/
def Obligations.T6evalStoresPointProducts : Prop :=
  ∀ (dst src1 src2 : Addr) (s : State), dst.toNat + 2816 ≤ 8192 → src1.toNat + 768 ≤ 8192 →
    src2.toNat + 768 ≤ 8192 →
    ∃ t, exec (.t6eval dst src1 src2) s = .next t ∧
      (AllCanonical (s.memRead src1.toNat 768) → AllCanonical (s.memRead src2.toNat 768) →
        ∀ e < 11, ∀ k < 256, (t.readWord (dst.toNat + 256 * e + k)).toInt =
          convCoeff (atPoint e (s.memRead src1.toNat 768))
            (atPoint e (s.memRead src2.toNat 768)) k % 9829) ∧
      FrameOutside ⟨dst.toNat, 2816⟩ s t

/-! ### The Toom-6 interpolator and reconstruction (45_toom6_interp.md) -/

/-- `IMX` with its two unit rows is the inverse modulo 9829 of the evaluation matrix, every entry in
[0, 9829) (10_state.md R27). -/
def Obligations.InterpolationMatrixInverts : Prop :=
  (∀ e < 11, ∀ c < 11,
    (∑ k ∈ Finset.range 11, evalMatrix e k * fullImx k c) % 9829 = if e = c then 1 else 0) ∧
  (∀ k < 11, ∀ e < 11, 0 ≤ fullImx k e ∧ fullImx k e < 9829)

/-- `T6INTERP` completes for every legal range: the first and last block verbatim; element `i` of
the other nine the fixed linear combination modulo 9829 of the eleven words of its column, where
those are canonical; nothing outside the destination changes (R180, R183). -/
def Obligations.T6interpCombinesColumns : Prop :=
  ∀ (dst src1 : Addr) (s : State), dst.toNat + 2816 ≤ 8192 → src1.toNat + 2816 ≤ 8192 →
    ∃ t, exec (.t6interp dst src1) s = .next t ∧
      (∀ i < 256,
        t.readWord (dst.toNat + i) = s.readWord (src1.toNat + i) ∧
        t.readWord (dst.toNat + 2560 + i) = s.readWord (src1.toNat + 2560 + i) ∧
        ((∀ e < 11, Canonical (s.readWord (src1.toNat + 256 * e + i))) →
          ∀ k, 1 ≤ k → k ≤ 9 → (t.readWord (dst.toNat + 256 * k + i)).toInt =
            (∑ e ∈ Finset.range 11,
              imx k e * (s.readWord (src1.toNat + 256 * e + i)).toInt) % 9829)) ∧
      FrameOutside ⟨dst.toNat, 2816⟩ s t

/-- `T6RECON` completes for every legal range: the edge segments copied bit for bit; each word of
the ten interior segments the residue of the sum of its two overlapping words, where that sum is
inside the domain; nothing outside the destination changes (R185, R186). -/
def Obligations.T6reconOverlapAdds : Prop :=
  ∀ (dst src1 : Addr) (s : State), dst.toNat + 1536 ≤ 8192 → src1.toNat + 2816 ≤ 8192 →
    ∃ t, exec (.t6recon dst src1) s = .next t ∧
      (∀ j < 128,
        t.readWord (dst.toNat + j) = s.readWord (src1.toNat + j) ∧
        t.readWord (dst.toNat + 1408 + j) = s.readWord (src1.toNat + 2560 + 128 + j) ∧
        ∀ r, 1 ≤ r → r ≤ 10 →
          InDomain ((s.readWord (src1.toNat + 256 * r + j)).toInt +
            (s.readWord (src1.toNat + 256 * (r - 1) + 128 + j)).toInt) →
          (t.readWord (dst.toNat + 128 * r + j)).toInt =
            ((s.readWord (src1.toNat + 256 * r + j)).toInt +
              (s.readWord (src1.toNat + 256 * (r - 1) + 128 + j)).toInt) % 9829) ∧
      FrameOutside ⟨dst.toNat, 1536⟩ s t

/-! ### The top-level multiplier (46_top.md) -/

/-- `MUL768` completes for every legal range; for canonical operands it stores the canonical
convolution, all 1536 coefficients of it; nothing outside the destination changes (R200, R201). -/
def Obligations.Mul768Multiplies : Prop :=
  ∀ (dst src1 src2 : Addr) (s : State), dst.toNat + 1536 ≤ 8192 → src1.toNat + 768 ≤ 8192 →
    src2.toNat + 768 ≤ 8192 →
    ∃ t, exec (.mul768 dst src1 src2) s = .next t ∧
      (AllCanonical (s.memRead src1.toNat 768) → AllCanonical (s.memRead src2.toNat 768) →
        ∀ k < 1536, (t.readWord (dst.toNat + k)).toInt =
          convCoeff (s.memRead src1.toNat 768) (s.memRead src2.toNat 768) k % 9829) ∧
      FrameOutside ⟨dst.toNat, 1536⟩ s t

/-- Commutativity: for canonical operands, swapping the sources leaves the same words, everywhere in
PMEM (R202 (a)). -/
def Obligations.Mul768Commutes : Prop :=
  ∀ (dst src1 src2 : Addr) (s : State), dst.toNat + 1536 ≤ 8192 → src1.toNat + 768 ≤ 8192 →
    src2.toNat + 768 ≤ 8192 → AllCanonical (s.memRead src1.toNat 768) →
    AllCanonical (s.memRead src2.toNat 768) →
    ∃ t t', exec (.mul768 dst src1 src2) s = .next t ∧ exec (.mul768 dst src2 src1) s = .next t' ∧
      ∀ a, t.readWord a = t'.readWord a

/-- Impulses and zero: when the first operand is `m` at one index and 0 elsewhere, for an `m` of 0
or 1, the product is the second operand shifted to that index and times `m` (R202 (b), (c), (d)). -/
def Obligations.Mul768ShiftsByImpulse : Prop :=
  ∀ (dst src1 src2 : Addr) (s : State) (p : Nat) (m : Word), dst.toNat + 1536 ≤ 8192 →
    src1.toNat + 768 ≤ 8192 → src2.toNat + 768 ≤ 8192 → p < 768 → m = 0 ∨ m = 1 →
    (∀ i < 768, s.readWord (src1.toNat + i) = if i = p then m else 0) →
    AllCanonical (s.memRead src2.toNat 768) →
    ∃ t, exec (.mul768 dst src1 src2) s = .next t ∧
      ∀ k < 1536, t.readWord (dst.toNat + k) =
        if m = 1 ∧ p ≤ k ∧ k < p + 768 then s.readWord (src2.toNat + (k - p)) else 0

/-- The four stages through PMEM temporaries leave in the result range exactly what `MUL768` leaves
there, for canonical operands, whatever the temporaries overlap (R201). -/
def Obligations.StagesEqualMul768 : Prop :=
  ∀ (dst tmp src1 src2 : Addr) (s : State), dst.toNat + 1536 ≤ 8192 → tmp.toNat + 2816 ≤ 8192 →
    src1.toNat + 768 ≤ 8192 → src2.toNat + 768 ≤ 8192 →
    AllCanonical (s.memRead src1.toNat 768) → AllCanonical (s.memRead src2.toNat 768) →
    ∃ t t1 t2 t3 t4, exec (.mul768 dst src1 src2) s = .next t ∧
      exec (.t6eval tmp src1 src2) s = .next t1 ∧ exec (.t6interp tmp tmp) t1 = .next t2 ∧
      exec (.t6recon dst tmp) t2 = .next t3 ∧ exec (.vfrz dst 1536) t3 = .next t4 ∧
      ∀ k < 1536, t4.readWord (dst.toNat + k) = t.readWord (dst.toNat + k)

/-! ### Every command (20_memory.md R46, R49, R50) -/

/-- The frame of all seventeen commands, refused or not: every PMEM word outside the destination
range, what the host has pending and what was returned to it are as before; with legal ranges
`STATUS` too, and with a range refused all of PMEM (20_memory.md R47, R49; 60_exceptions.md
R213). -/
def Obligations.CommandsStoreOnlyToDst : Prop :=
  ∀ (i : Instr) (s : State), ∃ t, exec i s = .next t ∧
    (∀ a, ¬ inRange (dstRange i) a → t.readWord a = s.readWord a) ∧
    t.resets = s.resets ∧ t.host = s.host ∧ t.reply = s.reply ∧
    (i.WellFormed → t.status = s.status) ∧
    (¬ i.WellFormed → ∀ a, t.readWord a = s.readWord a)

/-- What a command stores depends on nothing but the words of the ranges it reads (and, for UNSPEC
results, the occasion they are drawn at, which is the model's, log 5): not on the rest of PMEM, on
`STATUS`, or on earlier commands (20_memory.md R46, R49; 46_top.md R204). -/
def Obligations.ResultDependsOnSourcesOnly : Prop :=
  ∀ (i : Instr) (s s' : State), i.WellFormed → s.draws = s'.draws →
    (∀ r ∈ readRanges i, ∀ a, inRange r a → s'.readWord a = s.readWord a) →
    ∃ t t', exec i s = .next t ∧ exec i s' = .next t' ∧
      ∀ a, inRange (dstRange i) a → t'.readWord a = t.readWord a

/-- The examples of the assembler syntax assemble to their words, and `VNEG` is `VSMUL` by -1
(30_encoding.md R76, R77). -/
def Obligations.AssemblerExamples : Prop :=
  (assembleLine "FRZ 1, 0".toList).map encode = some 0x0100080000000000 ∧
  (assembleLine "VFRZ 5, 3".toList).map encode = some 0x0200280000000003 ∧
  (assembleLine "VACC 16, 0, 8".toList).map encode = some 0x0600800000000008 ∧
  (assembleLine "VADD 16, 0, 8, 8".toList).map encode = some 0x0500800000020008 ∧
  (assembleLine "VSMUL 100, 100, #-1, 256".toList).map encode = some 0x070320193FFFC100 ∧
  (assembleLine "MUL768 1536, 0, 768".toList).map encode = some 0x1130000000C00000 ∧
  (assembleLine "T6RECON 0, 4096".toList).map encode = some 0x1000040000000000 ∧
  (assembleLine "VNEG 100, 100, 256".toList).map encode = some 0x070320193FFFC100
end

