-- ==== Sys2Proof/Laws/PerInstr.lean ====
section
/-! SUPPORT. The per-instruction family `EncodesOpcode`: the word of a command carries its opcode in
bits 63:56 (30_encoding.md R61, R66). -/

namespace Sys2Proof

/-- Fields joined by `joinFields` carry the opcode in bits 63:56. -/
theorem opField_joinFields (op : Op) (dst src1 : Addr) (s2 : Imm) (len : Len) :
    opField (joinFields op dst src1 s2 len) = opcode op := by
  unfold opField joinFields
  ext i hi
  rw [BitVec.getElem_extractLsb', BitVec.getLsbD_append, BitVec.getLsbD_append,
    BitVec.getLsbD_append, BitVec.getLsbD_append, if_neg (by omega), if_neg (by omega),
    if_neg (by omega), if_neg (by omega), ← BitVec.getLsbD_eq_getElem]
  congr 1
  omega

namespace Laws.EncodesOpcode

/-- The word of the command carries the opcode of its mnemonic. -/
def Statement (i : Instr) : Prop := opField (encode i) = opcode (opIn i)

theorem frz (dst : Addr) (src1 : Addr) : Statement (.frz dst src1) :=
  opField_joinFields ..

theorem vfrz (dst : Addr) (len : Len) : Statement (.vfrz dst len) :=
  opField_joinFields ..

theorem vzero (dst : Addr) (len : Len) : Statement (.vzero dst len) :=
  opField_joinFields ..

theorem vcopy (dst : Addr) (src1 : Addr) (len : Len) : Statement (.vcopy dst src1 len) :=
  opField_joinFields ..

theorem vadd (dst : Addr) (src1 : Addr) (src2 : Addr) (len : Len) : Statement (.vadd dst src1 src2 len) :=
  opField_joinFields ..

theorem vacc (dst : Addr) (src1 : Addr) (len : Len) : Statement (.vacc dst src1 len) :=
  opField_joinFields ..

theorem vsmul (dst : Addr) (src1 : Addr) (imm : Imm) (len : Len) : Statement (.vsmul dst src1 imm len) :=
  opField_joinFields ..

theorem conv4 (dst : Addr) (src1 : Addr) (src2 : Addr) : Statement (.conv4 dst src1 src2) :=
  opField_joinFields ..

theorem kmul8 (dst : Addr) (src1 : Addr) (src2 : Addr) : Statement (.kmul8 dst src1 src2) :=
  opField_joinFields ..

theorem kmul16 (dst : Addr) (src1 : Addr) (src2 : Addr) : Statement (.kmul16 dst src1 src2) :=
  opField_joinFields ..

theorem kmul32 (dst : Addr) (src1 : Addr) (src2 : Addr) : Statement (.kmul32 dst src1 src2) :=
  opField_joinFields ..

theorem kmul64 (dst : Addr) (src1 : Addr) (src2 : Addr) : Statement (.kmul64 dst src1 src2) :=
  opField_joinFields ..

theorem kmul128 (dst : Addr) (src1 : Addr) (src2 : Addr) : Statement (.kmul128 dst src1 src2) :=
  opField_joinFields ..

theorem t6eval (dst : Addr) (src1 : Addr) (src2 : Addr) : Statement (.t6eval dst src1 src2) :=
  opField_joinFields ..

theorem t6interp (dst : Addr) (src1 : Addr) : Statement (.t6interp dst src1) :=
  opField_joinFields ..

theorem t6recon (dst : Addr) (src1 : Addr) : Statement (.t6recon dst src1) :=
  opField_joinFields ..

theorem mul768 (dst : Addr) (src1 : Addr) (src2 : Addr) : Statement (.mul768 dst src1 src2) :=
  opField_joinFields ..

end Laws.EncodesOpcode

end Sys2Proof
end

