-- ==== Sys2Proof/Laws/Encoding.lean ====
section
/-! SUPPORT. The bits of a command word: what each field of joined fields is, and which bit of a word
each field holds (30_encoding.md R61). -/

namespace Sys2Proof

/-- Bit `k` of joined fields. -/
theorem joinFields_bit (op : Op) (d a : Addr) (s2 : Imm) (n : Len) (k : Nat) :
    (joinFields op d a s2 n).getLsbD k =
      if k < 14 then n.getLsbD k
      else if k < 30 then s2.getLsbD (k - 14)
      else if k < 43 then a.getLsbD (k - 30)
      else if k < 56 then d.getLsbD (k - 43)
      else (opcode op).getLsbD (k - 56) := by
  unfold joinFields
  rw [BitVec.getLsbD_append, BitVec.getLsbD_append, BitVec.getLsbD_append, BitVec.getLsbD_append]
  split
  · rfl
  · by_cases h1 : k < 30
    · rw [if_pos (by omega), if_pos h1]
    · rw [if_neg (by omega), if_neg h1]
      by_cases h2 : k < 43
      · rw [if_pos (by omega), if_pos h2]; congr 1
      · rw [if_neg (by omega), if_neg h2]
        by_cases h3 : k < 56
        · rw [if_pos (by omega), if_pos h3]; congr 1
        · rw [if_neg (by omega), if_neg h3]; congr 1

/-! ### The fields of joined fields -/

@[simp] theorem dstField_joinFields (op : Op) (d a : Addr) (s2 : Imm) (n : Len) :
    dstField (joinFields op d a s2 n) = d := by
  unfold dstField; ext i hi
  rw [BitVec.getElem_extractLsb', joinFields_bit, if_neg (by omega), if_neg (by omega),
    if_neg (by omega), if_pos (by omega), ← BitVec.getLsbD_eq_getElem]
  congr 1; omega

@[simp] theorem src1Field_joinFields (op : Op) (d a : Addr) (s2 : Imm) (n : Len) :
    src1Field (joinFields op d a s2 n) = a := by
  unfold src1Field; ext i hi
  rw [BitVec.getElem_extractLsb', joinFields_bit, if_neg (by omega), if_neg (by omega),
    if_pos (by omega), ← BitVec.getLsbD_eq_getElem]
  congr 1; omega

@[simp] theorem immField_joinFields (op : Op) (d a : Addr) (s2 : Imm) (n : Len) :
    immField (joinFields op d a s2 n) = s2 := by
  unfold immField; ext i hi
  rw [BitVec.getElem_extractLsb', joinFields_bit, if_neg (by omega), if_pos (by omega),
    ← BitVec.getLsbD_eq_getElem]
  congr 1; omega

@[simp] theorem src2Field_joinFields (op : Op) (d a b : Addr) (n : Len) :
    src2Field (joinFields op d a (s2OfAddr b) n) = b := by
  unfold src2Field; ext i hi
  rw [BitVec.getElem_extractLsb', joinFields_bit, if_neg (by omega), if_pos (by omega),
    ← BitVec.getLsbD_eq_getElem]
  unfold s2OfAddr
  rw [BitVec.getLsbD_append, if_pos (by omega)]
  congr 1; omega

@[simp] theorem lenField_joinFields (op : Op) (d a : Addr) (s2 : Imm) (n : Len) :
    lenField (joinFields op d a s2 n) = n := by
  unfold lenField; ext i hi
  rw [BitVec.getElem_extractLsb', joinFields_bit, if_pos (by omega), ← BitVec.getLsbD_eq_getElem]
  congr 1; omega

/-! ### Opcodes -/

@[simp] theorem opOf_opcode (op : Op) : opOf (opcode op) = some op := by cases op <;> rfl

theorem opOf_eq_some (b : BitVec 8) (op : Op) : opOf b = some op ↔ b = opcode op := by
  revert b; cases op <;> decide

@[simp] theorem opIn_fieldsOf (op : Op) (cmd : Command) : opIn (fieldsOf op cmd) = op := by
  cases op <;> rfl

/-! ### The bits of a word that its fields hold -/

theorem bit_dstField (cmd : Command) {k : Nat} (h1 : 43 ≤ k) (h2 : k < 56) :
    cmd.getLsbD k = (dstField cmd).getLsbD (k - 43) := by
  unfold dstField
  rw [BitVec.getLsbD_extractLsb', show 43 + (k - 43) = k by omega, decide_eq_true (by omega),
    Bool.true_and]

theorem bit_src1Field (cmd : Command) {k : Nat} (h1 : 30 ≤ k) (h2 : k < 43) :
    cmd.getLsbD k = (src1Field cmd).getLsbD (k - 30) := by
  unfold src1Field
  rw [BitVec.getLsbD_extractLsb', show 30 + (k - 30) = k by omega, decide_eq_true (by omega),
    Bool.true_and]

theorem bit_immField (cmd : Command) {k : Nat} (h1 : 14 ≤ k) (h2 : k < 30) :
    cmd.getLsbD k = (immField cmd).getLsbD (k - 14) := by
  unfold immField
  rw [BitVec.getLsbD_extractLsb', show 14 + (k - 14) = k by omega, decide_eq_true (by omega),
    Bool.true_and]

theorem bit_src2Field (cmd : Command) {k : Nat} (h1 : 14 ≤ k) (h2 : k < 27) :
    cmd.getLsbD k = (src2Field cmd).getLsbD (k - 14) := by
  unfold src2Field
  rw [BitVec.getLsbD_extractLsb', show 14 + (k - 14) = k by omega, decide_eq_true (by omega),
    Bool.true_and]

theorem bit_lenField (cmd : Command) {k : Nat} (h : k < 14) :
    cmd.getLsbD k = (lenField cmd).getLsbD k := by
  unfold lenField
  rw [BitVec.getLsbD_extractLsb', Nat.zero_add, decide_eq_true (by omega), Bool.true_and]

theorem bit_opField (cmd : Command) {k : Nat} (h1 : 56 ≤ k) (h2 : k < 64) :
    cmd.getLsbD k = (opField cmd).getLsbD (k - 56) := by
  unfold opField
  rw [BitVec.getLsbD_extractLsb', show 56 + (k - 56) = k by omega, decide_eq_true (by omega),
    Bool.true_and]

/-- A bit under a mask that a word has none of is 0. -/
theorem bit_of_and_eq_zero {cmd m : Command} (h : cmd &&& m = 0) {k : Nat}
    (hm : m.getLsbD k = true) : cmd.getLsbD k = false := by
  have : (cmd &&& m).getLsbD k = false := by rw [h]; simp
  simpa [hm] using this

/-- A word with no bit under a mask. -/
theorem and_eq_zero_of_bits {cmd m : Command}
    (h : ∀ k < 64, m.getLsbD k = true → cmd.getLsbD k = false) : cmd &&& m = 0 := by
  ext k hk
  rw [BitVec.getElem_and, ← BitVec.getLsbD_eq_getElem, ← BitVec.getLsbD_eq_getElem]
  cases hm : m.getLsbD k
  · simp
  · simp [h k hk hm]

end Sys2Proof
end

