-- ==== Sys2Proof/Laws/State.lean ====
section
/-! SUPPORT. One lemma per field per update of the state, so that no proof unfolds a record
update. -/

namespace Sys2Proof.Config

/-! ### The constants by value, for arithmetic -/

@[simp] theorem q_eq : q = 9829 := rfl
@[simp] theorem rbound_eq : rbound = 165191050 := rfl
@[simp] theorem pmemWords_eq : pmemWords = 8192 := rfl
@[simp] theorem nb_eq : nb = 6 := rfl
@[simp] theorem bl_eq : bl = 128 := rfl
@[simp] theorem npts_eq : npts = 11 := rfl
@[simp] theorem kbase_eq : kbase = 4 := rfl

end Sys2Proof.Config

namespace Sys2Proof.Machine

/-! ### `writeWord` -/

@[simp] theorem State.writeWord_status (s : State) (a : Nat) (v : Word) :
    (s.writeWord a v).status = s.status := rfl
@[simp] theorem State.writeWord_pmem (s : State) (a : Nat) (v : Word) :
    (s.writeWord a v).pmem = putCell a v s.pmem := rfl
@[simp] theorem State.writeWord_resets (s : State) (a : Nat) (v : Word) :
    (s.writeWord a v).resets = s.resets := rfl
@[simp] theorem State.writeWord_draws (s : State) (a : Nat) (v : Word) :
    (s.writeWord a v).draws = s.draws := rfl
@[simp] theorem State.writeWord_host (s : State) (a : Nat) (v : Word) :
    (s.writeWord a v).host = s.host := rfl
@[simp] theorem State.writeWord_reply (s : State) (a : Nat) (v : Word) :
    (s.writeWord a v).reply = s.reply := rfl

/-! ### `drawn` -/

@[simp] theorem State.drawn_status (s : State) :
    (s.drawn).status = s.status := rfl
@[simp] theorem State.drawn_pmem (s : State) :
    (s.drawn).pmem = s.pmem := rfl
@[simp] theorem State.drawn_resets (s : State) :
    (s.drawn).resets = s.resets := rfl
@[simp] theorem State.drawn_draws (s : State) :
    (s.drawn).draws = s.draws + 1 := rfl
@[simp] theorem State.drawn_host (s : State) :
    (s.drawn).host = s.host := rfl
@[simp] theorem State.drawn_reply (s : State) :
    (s.drawn).reply = s.reply := rfl

/-! ### `raise` -/

@[simp] theorem State.raise_status (s : State) (e : CmdError) :
    (s.raise e).status = packStatus true (if errOf s.status then ecodeOf s.status else codeOf e) := rfl
@[simp] theorem State.raise_pmem (s : State) (e : CmdError) :
    (s.raise e).pmem = s.pmem := rfl
@[simp] theorem State.raise_resets (s : State) (e : CmdError) :
    (s.raise e).resets = s.resets := rfl
@[simp] theorem State.raise_draws (s : State) (e : CmdError) :
    (s.raise e).draws = s.draws := rfl
@[simp] theorem State.raise_host (s : State) (e : CmdError) :
    (s.raise e).host = s.host := rfl
@[simp] theorem State.raise_reply (s : State) (e : CmdError) :
    (s.raise e).reply = s.reply := rfl

/-! ### `statusClear` -/

@[simp] theorem State.statusClear_status (s : State) :
    (s.statusClear).status = 0 := rfl
@[simp] theorem State.statusClear_pmem (s : State) :
    (s.statusClear).pmem = s.pmem := rfl
@[simp] theorem State.statusClear_resets (s : State) :
    (s.statusClear).resets = s.resets := rfl
@[simp] theorem State.statusClear_draws (s : State) :
    (s.statusClear).draws = s.draws := rfl
@[simp] theorem State.statusClear_host (s : State) :
    (s.statusClear).host = s.host := rfl
@[simp] theorem State.statusClear_reply (s : State) :
    (s.statusClear).reply = s.reply := rfl

/-! ### `resetUnit` -/

@[simp] theorem State.resetUnit_status (s : State) :
    (s.resetUnit).status = 0 := rfl
@[simp] theorem State.resetUnit_pmem (s : State) :
    (s.resetUnit).pmem = [] := rfl
@[simp] theorem State.resetUnit_resets (s : State) :
    (s.resetUnit).resets = s.resets + 1 := rfl
@[simp] theorem State.resetUnit_draws (s : State) :
    (s.resetUnit).draws = s.draws := rfl
@[simp] theorem State.resetUnit_host (s : State) :
    (s.resetUnit).host = s.host := rfl
@[simp] theorem State.resetUnit_reply (s : State) :
    (s.resetUnit).reply = s.reply := rfl

/-! ### `replied` -/

@[simp] theorem State.replied_status (s : State) (w : Word) :
    (s.replied w).status = s.status := rfl
@[simp] theorem State.replied_pmem (s : State) (w : Word) :
    (s.replied w).pmem = s.pmem := rfl
@[simp] theorem State.replied_resets (s : State) (w : Word) :
    (s.replied w).resets = s.resets := rfl
@[simp] theorem State.replied_draws (s : State) (w : Word) :
    (s.replied w).draws = s.draws := rfl
@[simp] theorem State.replied_host (s : State) (w : Word) :
    (s.replied w).host = s.host := rfl
@[simp] theorem State.replied_reply (s : State) (w : Word) :
    (s.replied w).reply = some w := rfl

/-! ### `begin` -/

@[simp] theorem State.begin_status (s : State) (rest : List Transaction) :
    (s.begin rest).status = s.status := rfl
@[simp] theorem State.begin_pmem (s : State) (rest : List Transaction) :
    (s.begin rest).pmem = s.pmem := rfl
@[simp] theorem State.begin_resets (s : State) (rest : List Transaction) :
    (s.begin rest).resets = s.resets := rfl
@[simp] theorem State.begin_draws (s : State) (rest : List Transaction) :
    (s.begin rest).draws = s.draws := rfl
@[simp] theorem State.begin_host (s : State) (rest : List Transaction) :
    (s.begin rest).host = rest := rfl
@[simp] theorem State.begin_reply (s : State) (rest : List Transaction) :
    (s.begin rest).reply = none := rfl

/-! ### `issuing` -/

@[simp] theorem State.issuing_status (s : State) (cmd : Command) :
    (s.issuing cmd).status = s.status := rfl
@[simp] theorem State.issuing_pmem (s : State) (cmd : Command) :
    (s.issuing cmd).pmem = s.pmem := rfl
@[simp] theorem State.issuing_resets (s : State) (cmd : Command) :
    (s.issuing cmd).resets = s.resets := rfl
@[simp] theorem State.issuing_draws (s : State) (cmd : Command) :
    (s.issuing cmd).draws = s.draws := rfl
@[simp] theorem State.issuing_host (s : State) (cmd : Command) :
    (s.issuing cmd).host = .issue cmd :: s.host := rfl
@[simp] theorem State.issuing_reply (s : State) (cmd : Command) :
    (s.issuing cmd).reply = s.reply := rfl

/-! ### The state after reset -/

@[simp] theorem State.reset_status : State.reset.status = 0 := rfl
@[simp] theorem State.reset_pmem : State.reset.pmem = [] := rfl
@[simp] theorem State.reset_resets : State.reset.resets = 0 := rfl
@[simp] theorem State.reset_draws : State.reset.draws = 0 := rfl
@[simp] theorem State.reset_host : State.reset.host = [] := rfl
@[simp] theorem State.reset_reply : State.reset.reply = none := rfl

end Sys2Proof.Machine
end

