-- ==== Sys2Proof/Laws/Flags.lean ====
section
/-! SUPPORT. The fields of a packed `STATUS` word (10_state.md R22). -/

namespace Sys2Proof.Machine

@[simp] theorem errOf_packStatus (e : Bool) (c : BitVec 3) : errOf (packStatus e c) = e := by
  revert e c; decide

@[simp] theorem ecodeOf_packStatus (e : Bool) (c : BitVec 3) : ecodeOf (packStatus e c) = c := by
  revert e c; decide

theorem packStatus_toNat (e : Bool) (c : BitVec 3) :
    (packStatus e c).toNat = (if e then 1 else 0) + 2 * c.toNat := by
  revert e c; decide

end Sys2Proof.Machine
end

