-- ==== Sys2Proof/Laws/Memory.lean ====
section
/-! SUPPORT. PMEM words and ranges: a read after a write, what a write leaves alone, and that every
memory operation keeps the canonical form. -/

namespace Sys2Proof.Machine

/-! ### Cells -/

@[simp] theorem getCell_nil (a : Nat) : getCell a [] = none := rfl

theorem getCell_cons (a b : Nat) (w : Word) (m : Memory) :
    getCell a ((b, w) :: m) = if a = b then some w else getCell a m := rfl

theorem getCell_putCell (a b : Nat) (v : Word) (m : Memory) :
    getCell b (putCell a v m) = if b = a then some v else getCell b m := by
  induction m with
  | nil => simp [putCell, getCell]
  | cons c m ih =>
    obtain ⟨x, w⟩ := c
    simp only [putCell]
    split
    · simp [getCell]
    · split
      · rename_i _ h; subst h
        simp only [getCell]
        split <;> rfl
      · simp only [getCell, ih]
        split
        · rename_i h; subst h
          rw [if_neg (by omega)]
        · rfl

theorem putCell_keys (a : Nat) (v : Word) (m : Memory) (k : Nat) :
    k ∈ (putCell a v m).map Prod.fst → k = a ∨ k ∈ m.map Prod.fst := by
  induction m with
  | nil => simp [putCell]
  | cons c m ih =>
    obtain ⟨x, w⟩ := c
    simp only [putCell]
    split
    · simp
    · split
      · rename_i _ h; subst h; simp
      · simp only [List.map_cons, List.mem_cons]
        rintro (h | h)
        · exact .inr (.inl h)
        · exact (ih h).imp id .inr

/-- A write to a word address of PMEM keeps the canonical form. -/
theorem putCell_wf {m : Memory} {a : Nat} (v : Word) (hm : Memory.wf m)
    (ha : a < Config.pmemWords) : Memory.wf (putCell a v m) := by
  induction m with
  | nil => simpa [putCell, Memory.wf] using ha
  | cons c m ih =>
    obtain ⟨x, w⟩ := c
    obtain ⟨hs, hb⟩ := hm
    simp only [List.map_cons, List.pairwise_cons] at hs
    have hx : x < Config.pmemWords := hb (x, w) (by simp)
    have hrest : Memory.wf m := ⟨hs.2, fun c hc => hb c (by simp [hc])⟩
    simp only [putCell]
    split
    · rename_i hlt
      refine ⟨?_, fun c hc => ?_⟩
      · simp only [List.map_cons, List.pairwise_cons]
        refine ⟨fun k hk => ?_, hs⟩
        rcases List.mem_cons.mp hk with rfl | hk
        · exact hlt
        · exact lt_trans hlt (hs.1 k hk)
      · rcases List.mem_cons.mp hc with rfl | hc
        · exact ha
        · exact hb c hc
    · split
      · rename_i _ h; subst h
        refine ⟨by simpa using hs, fun c hc => ?_⟩
        rcases List.mem_cons.mp hc with rfl | hc
        · exact ha
        · exact hrest.2 c hc
      · have hgt : x < a := by omega
        refine ⟨?_, fun c hc => ?_⟩
        · simp only [List.map_cons, List.pairwise_cons]
          refine ⟨fun k hk => ?_, (ih hrest).1⟩
          rcases putCell_keys a v m k hk with rfl | hk
          · exact hgt
          · exact hs.1 k hk
        · rcases List.mem_cons.mp hc with rfl | hc
          · exact hx
          · exact (ih hrest).2 c hc

theorem wf_nil : Memory.wf [] := by simp [Memory.wf]

/-! ### Words -/

/-- Reading depends on the cells and on the reset the unwritten words were drawn at. -/
theorem State.readWord_congr {s t : State} (hp : t.pmem = s.pmem) (hr : t.resets = s.resets)
    (a : Nat) : t.readWord a = s.readWord a := by
  simp [State.readWord, hp, hr]

theorem State.readWord_writeWord (s : State) (a b : Nat) (v : Word) :
    (s.writeWord a v).readWord b = if b = a then v else s.readWord b := by
  simp only [State.readWord, State.writeWord_pmem, State.writeWord_resets, getCell_putCell]
  split <;> rfl

@[simp] theorem State.readWord_drawn (s : State) (a : Nat) : s.drawn.readWord a = s.readWord a :=
  rfl
@[simp] theorem State.readWord_raise (s : State) (e : CmdError) (a : Nat) :
    (s.raise e).readWord a = s.readWord a := rfl
@[simp] theorem State.readWord_statusClear (s : State) (a : Nat) :
    s.statusClear.readWord a = s.readWord a := rfl
@[simp] theorem State.readWord_replied (s : State) (w : Word) (a : Nat) :
    (s.replied w).readWord a = s.readWord a := rfl
@[simp] theorem State.readWord_begin (s : State) (rest : List Transaction) (a : Nat) :
    (s.begin rest).readWord a = s.readWord a := rfl
@[simp] theorem State.readWord_issuing (s : State) (cmd : Command) (a : Nat) :
    (s.issuing cmd).readWord a = s.readWord a := rfl

/-! ### Ranges -/

@[simp] theorem State.memRead_length (s : State) (a n : Nat) : (s.memRead a n).length = n := by
  simp [State.memRead]

/-- Element `i` of a range is the word at its `i`-th address. -/
theorem State.elem_memRead (s : State) (a n i : Nat) (h : i < n) :
    elem (s.memRead a n) i = s.readWord (a + i) := by
  simp [elem, State.memRead, List.getD_eq_getElem?_getD, h]

/-- Two states with the same words in a range read the same range. -/
theorem State.memRead_congr {s t : State} {a n : Nat}
    (h : ∀ i < n, t.readWord (a + i) = s.readWord (a + i)) : t.memRead a n = s.memRead a n :=
  List.map_congr_left fun i hi => h i (List.mem_range.mp hi)

@[simp] theorem State.memWrite_status (s : State) (a : Nat) (vs : List Word) :
    (s.memWrite a vs).status = s.status := by
  induction vs generalizing s a with
  | nil => rfl
  | cons v vs ih => simp [State.memWrite, ih]

@[simp] theorem State.memWrite_resets (s : State) (a : Nat) (vs : List Word) :
    (s.memWrite a vs).resets = s.resets := by
  induction vs generalizing s a with
  | nil => rfl
  | cons v vs ih => simp [State.memWrite, ih]

@[simp] theorem State.memWrite_draws (s : State) (a : Nat) (vs : List Word) :
    (s.memWrite a vs).draws = s.draws := by
  induction vs generalizing s a with
  | nil => rfl
  | cons v vs ih => simp [State.memWrite, ih]

@[simp] theorem State.memWrite_host (s : State) (a : Nat) (vs : List Word) :
    (s.memWrite a vs).host = s.host := by
  induction vs generalizing s a with
  | nil => rfl
  | cons v vs ih => simp [State.memWrite, ih]

@[simp] theorem State.memWrite_reply (s : State) (a : Nat) (vs : List Word) :
    (s.memWrite a vs).reply = s.reply := by
  induction vs generalizing s a with
  | nil => rfl
  | cons v vs ih => simp [State.memWrite, ih]

/-- After a range is written, its addresses hold the words written and every other address holds
what it held. -/
theorem State.readWord_memWrite (s : State) (a : Nat) (vs : List Word) (b : Nat) :
    (s.memWrite a vs).readWord b =
      if a ≤ b ∧ b < a + vs.length then elem vs (b - a) else s.readWord b := by
  induction vs generalizing s a with
  | nil => rw [if_neg (by simp)]; rfl
  | cons v vs ih =>
    rw [State.memWrite, ih, State.readWord_writeWord]
    simp only [List.length_cons]
    by_cases h0 : b = a
    · subst h0
      rw [if_neg (by omega), if_pos rfl, if_pos (by omega)]
      simp [elem]
    · by_cases h1 : a + 1 ≤ b ∧ b < a + 1 + vs.length
      · rw [if_pos h1, if_pos (by omega)]
        obtain ⟨k, rfl⟩ : ∃ k, b = a + 1 + k := ⟨b - (a + 1), by omega⟩
        rw [show a + 1 + k - (a + 1) = k by omega, show a + 1 + k - a = k + 1 by omega]
        simp [elem]
      · rw [if_neg h1, if_neg h0, if_neg (by omega)]

/-- Reading back a range just written gives the words written. -/
theorem State.memRead_memWrite (s : State) (a : Nat) (vs : List Word) :
    (s.memWrite a vs).memRead a vs.length = vs := by
  apply List.ext_getElem (by simp)
  intro i h1 h2
  simp only [State.memRead, List.getElem_map, List.getElem_range, State.readWord_memWrite]
  rw [if_pos (by omega), Nat.add_sub_cancel_left]
  simp [elem, h2]

/-- Writing a range that ends inside PMEM keeps the canonical form. -/
theorem State.memWrite_wf {s : State} {a : Nat} {vs : List Word} (hs : Memory.wf s.pmem)
    (h : a + vs.length ≤ Config.pmemWords) : Memory.wf (s.memWrite a vs).pmem := by
  induction vs generalizing s a with
  | nil => exact hs
  | cons v vs ih =>
    simp only [List.length_cons] at h
    exact ih (putCell_wf v hs (by omega)) (by omega)

/-- The memory after reset has the canonical form. -/
theorem State.reset_wf : Memory.wf State.reset.pmem := wf_nil

end Sys2Proof.Machine
end

