-- ==== Sys2Proof/Laws/Ops.lean ====
section
/-! SUPPORT. What the shared operations do, said once each: elementwise commands (20_memory.md R47),
composite commands (20_memory.md R49), and guarded effects (30_encoding.md R60). -/

namespace Sys2Proof.Machine

/-! ### Elementwise commands -/

theorem State.elementwise_zero (s : State) (dst : Nat) (val : Nat → State → Word) :
    s.elementwise dst 0 val = s := rfl

theorem State.elementwise_succ (s : State) (dst n : Nat) (val : Nat → State → Word) :
    s.elementwise dst (n + 1) val =
      (s.elementwise dst n val).writeWord (dst + n) (val n (s.elementwise dst n val)) := rfl

@[simp] theorem State.elementwise_status (s : State) (dst n : Nat) (val : Nat → State → Word) :
    (s.elementwise dst n val).status = s.status := by
  induction n with
  | zero => rfl
  | succ n ih => simp [State.elementwise_succ, ih]

@[simp] theorem State.elementwise_resets (s : State) (dst n : Nat) (val : Nat → State → Word) :
    (s.elementwise dst n val).resets = s.resets := by
  induction n with
  | zero => rfl
  | succ n ih => simp [State.elementwise_succ, ih]

@[simp] theorem State.elementwise_draws (s : State) (dst n : Nat) (val : Nat → State → Word) :
    (s.elementwise dst n val).draws = s.draws := by
  induction n with
  | zero => rfl
  | succ n ih => simp [State.elementwise_succ, ih]

@[simp] theorem State.elementwise_host (s : State) (dst n : Nat) (val : Nat → State → Word) :
    (s.elementwise dst n val).host = s.host := by
  induction n with
  | zero => rfl
  | succ n ih => simp [State.elementwise_succ, ih]

@[simp] theorem State.elementwise_reply (s : State) (dst n : Nat) (val : Nat → State → Word) :
    (s.elementwise dst n val).reply = s.reply := by
  induction n with
  | zero => rfl
  | succ n ih => simp [State.elementwise_succ, ih]

/-- An elementwise command changes no word outside its destination range. -/
theorem State.readWord_elementwise_outside (s : State) (dst n : Nat) (val : Nat → State → Word)
    {a : Nat} (h : ¬ (dst ≤ a ∧ a < dst + n)) :
    (s.elementwise dst n val).readWord a = s.readWord a := by
  induction n with
  | zero => rfl
  | succ n ih =>
    rw [State.elementwise_succ, State.readWord_writeWord, if_neg (by omega), ih (by omega)]

/-- Element `i` of the destination holds what was computed for it from the state that elements
`0` to `i-1` left; later elements do not touch it. -/
theorem State.readWord_elementwise_inside (s : State) (dst n : Nat) (val : Nat → State → Word)
    {i : Nat} (h : i < n) :
    (s.elementwise dst n val).readWord (dst + i) = val i (s.elementwise dst i val) := by
  induction n with
  | zero => omega
  | succ n ih =>
    rw [State.elementwise_succ, State.readWord_writeWord]
    by_cases hi : i = n
    · subst hi; rw [if_pos rfl]
    · rw [if_neg (by omega), ih (by omega)]

/-- What is read while element `i` is processed: the final word where an earlier element has been
written, the original word elsewhere. -/
theorem State.readWord_elementwise_partial (s : State) (dst n : Nat) (val : Nat → State → Word)
    {i : Nat} (h : i ≤ n) (a : Nat) :
    (s.elementwise dst i val).readWord a =
      if dst ≤ a ∧ a < dst + i then (s.elementwise dst n val).readWord a else s.readWord a := by
  split
  · rename_i ha
    obtain ⟨k, rfl⟩ : ∃ k, a = dst + k := ⟨a - dst, by omega⟩
    rw [State.readWord_elementwise_inside _ _ _ _ (by omega : k < i),
      State.readWord_elementwise_inside _ _ _ _ (by omega : k < n)]
  · rename_i ha
    exact State.readWord_elementwise_outside _ _ _ _ ha

/-- An elementwise command whose destination ends inside PMEM keeps the canonical form. -/
theorem State.elementwise_wf {s : State} {dst n : Nat} (val : Nat → State → Word)
    (hs : Memory.wf s.pmem) (h : dst + n ≤ Config.pmemWords) :
    Memory.wf (s.elementwise dst n val).pmem := by
  induction n with
  | zero => exact hs
  | succ n ih => exact putCell_wf _ (ih (by omega)) (by omega)

/-! ### Composite commands -/

@[simp] theorem State.composite_status (s : State) (dst : Addr) (r : List Word) :
    (s.composite dst r).status = s.status := by simp [State.composite]

@[simp] theorem State.composite_resets (s : State) (dst : Addr) (r : List Word) :
    (s.composite dst r).resets = s.resets := by simp [State.composite]

@[simp] theorem State.composite_draws (s : State) (dst : Addr) (r : List Word) :
    (s.composite dst r).draws = s.draws + 1 := by simp [State.composite]

@[simp] theorem State.composite_host (s : State) (dst : Addr) (r : List Word) :
    (s.composite dst r).host = s.host := by simp [State.composite]

@[simp] theorem State.composite_reply (s : State) (dst : Addr) (r : List Word) :
    (s.composite dst r).reply = s.reply := by simp [State.composite]

/-- A composite command's destination holds its result; every other word is as before. -/
theorem State.readWord_composite (s : State) (dst : Addr) (r : List Word) (a : Nat) :
    (s.composite dst r).readWord a =
      if dst.toNat ≤ a ∧ a < dst.toNat + r.length then elem r (a - dst.toNat)
      else s.readWord a := by
  simp [State.composite, State.readWord_memWrite]

theorem State.memRead_composite (s : State) (dst : Addr) (r : List Word) :
    (s.composite dst r).memRead dst.toNat r.length = r := by
  have h := State.memRead_memWrite s dst.toNat r
  simpa [State.composite, State.memRead] using h

theorem State.composite_wf {s : State} {dst : Addr} {r : List Word} (hs : Memory.wf s.pmem)
    (h : dst.toNat + r.length ≤ Config.pmemWords) : Memory.wf (s.composite dst r).pmem :=
  State.memWrite_wf hs h

@[simp] theorem State.unspecs_length (s : State) (n : Nat) : (s.unspecs n).length = n := by
  simp [State.unspecs]

/-! ### Guarded effects -/

/-- A command whose ranges pass has its effect. -/
theorem State.guarded_ok {s : State} {i : Instr} (h : rangesOk i = true) (e : State) :
    s.guarded i e = e := by simp [State.guarded, h]

/-- A command whose ranges fail raises `BAD_RANGE`. -/
theorem State.guarded_bad {s : State} {i : Instr} (h : rangesOk i = false) (e : State) :
    s.guarded i e = s.raise .badRange := by simp [State.guarded, h]

/-- A guarded effect is one of the two. -/
theorem State.guarded_cases (s : State) (i : Instr) (e : State) :
    (rangesOk i = true ∧ s.guarded i e = e) ∨
      (rangesOk i = false ∧ s.guarded i e = s.raise .badRange) := by
  cases h : rangesOk i
  · exact .inr ⟨rfl, State.guarded_bad h e⟩
  · exact .inl ⟨rfl, State.guarded_ok h e⟩

/-- A command that passes the range check ends its destination inside PMEM. -/
theorem dstRange_le_of_rangesOk {i : Instr} (h : rangesOk i = true) :
    (dstRange i).base + (dstRange i).size ≤ Config.pmemWords := by
  simp only [rangesOk, Bool.and_eq_true, List.all_cons, decide_eq_true_eq] at h
  exact h.2.1

/-! ### Steps -/

theorem step_idle {s : State} (h : s.host = []) : step s = .next s := by simp [step, h]

theorem step_perform {s : State} {x : Transaction} {rest : List Transaction}
    (h : s.host = x :: rest) : step s = perform x (s.begin rest) := by simp [step, h]

end Sys2Proof.Machine
end

