-- ==== Sys2Proof/Laws/Sequences.lean ====
section
/-! SUPPORT. Lengths and elements of the sequence functions, and the value of a residue. -/

namespace Sys2Proof.Machine

/-! ### Elements -/

theorem elem_of_lt {s : List Word} {i : Nat} (h : i < s.length) : elem s i = s[i] := by
  simp [elem, h]

theorem elem_of_ge {s : List Word} {i : Nat} (h : s.length ≤ i) : elem s i = 0 := by
  simp [elem, h]

theorem elem_map_range (n : Nat) (f : Nat → Word) {i : Nat} (h : i < n) :
    elem ((List.range n).map f) i = f i := by
  simp [elem, h]

theorem elem_seqZero (n i : Nat) : elem (seqZero n) i = 0 := by
  by_cases h : i < n
  · simp [elem, seqZero, h]
  · simp [elem, seqZero, Nat.le_of_not_lt h]

/-- Blocks of equal length laid back to back: element `i` of block `k`. -/
theorem elem_flatMap_range (m n : Nat) (f : Nat → List Word) (hf : ∀ k < m, (f k).length = n)
    {k i : Nat} (hk : k < m) (hi : i < n) :
    elem ((List.range m).flatMap f) (n * k + i) = elem (f k) i := by
  induction m with
  | zero => omega
  | succ m ih =>
    have hlen : ∀ j ≤ m, ((List.range j).flatMap f).length = n * j := by
      intro j hj
      induction j with
      | zero => simp
      | succ j ihj =>
        rw [List.range_succ, List.flatMap_append, List.length_append, ihj (by omega)]
        simp [hf j (by omega), Nat.mul_succ]
    have hm := hlen m le_rfl
    rw [List.range_succ, List.flatMap_append, List.flatMap_singleton]
    by_cases hkm : k = m
    · subst hkm
      simp only [elem, List.getD_eq_getElem?_getD]
      rw [List.getElem?_append_right (by omega), hm, Nat.add_sub_cancel_left]
    · have hlt : n * k + i < ((List.range m).flatMap f).length := by
        rw [hm]
        calc n * k + i < n * k + n := by omega
          _ = n * (k + 1) := by ring
          _ ≤ n * m := Nat.mul_le_mul_left n (by omega)
      have hih := ih (fun j hj => hf j (by omega)) (by omega)
      unfold elem at hih ⊢
      rw [List.getD_append _ _ _ _ hlt, hih]

/-- Blocks of equal length laid back to back have the sum of the lengths. -/
theorem length_flatMap_range (m n : Nat) (f : Nat → List Word) (hf : ∀ k < m, (f k).length = n) :
    ((List.range m).flatMap f).length = n * m := by
  induction m with
  | zero => simp
  | succ m ih =>
    rw [List.range_succ, List.flatMap_append, List.length_append, ih fun k hk => hf k (by omega)]
    simp [hf m (by omega), Nat.mul_succ]

/-! ### Residues -/

theorem residue_toInt (x : Int) : (residue x).toInt = x % Config.q := by
  have h0 := Int.emod_nonneg x (by decide : Config.q ≠ 0)
  have h1 := Int.emod_lt_of_pos x (by decide : 0 < Config.q)
  unfold residue
  simp only [Config.q] at *
  rw [BitVec.toInt_ofInt, Int.bmod_eq_of_le] <;> simp <;> omega

theorem residue_canonical (x : Int) : Canonical (residue x) := by
  rw [Canonical, residue_toInt]
  exact ⟨Int.emod_nonneg x (by decide), Int.emod_lt_of_pos x (by decide)⟩

theorem allCanonical_iff (s : List Word) : AllCanonical s ↔ ∀ w ∈ s, Canonical w := by
  simp [AllCanonical]

theorem seqFreeze_canonical (a : List Word) : AllCanonical (seqFreeze a) := by
  rw [allCanonical_iff]
  intro w hw
  obtain ⟨x, -, rfl⟩ := List.mem_map.mp hw
  exact residue_canonical _

/-! ### Lengths -/

@[simp] theorem seqZero_length (n : Nat) : (seqZero n).length = n := by simp [seqZero]

@[simp] theorem seqAdd_length (a b : List Word) :
    (seqAdd a b).length = min a.length b.length := by simp [seqAdd]

@[simp] theorem seqScale_length (c : Int) (a : List Word) :
    (seqScale c a).length = a.length := by simp [seqScale]

@[simp] theorem seqFreeze_length (a : List Word) : (seqFreeze a).length = a.length := by
  simp [seqFreeze]

/-- Accumulating into a part that lies inside the buffer keeps its length. -/
theorem seqAcc_length {off : Nat} {src buf : List Word} (h : off + src.length ≤ buf.length) :
    (seqAcc off src buf).length = buf.length := by
  simp [seqAcc]; omega

/-- Accumulating adds the source to its part of the buffer and leaves the rest. -/
theorem elem_seqAcc {off : Nat} {src buf : List Word} (h : off + src.length ≤ buf.length)
    (k : Nat) : elem (seqAcc off src buf) k =
      if off ≤ k ∧ k < off + src.length then elem buf k + elem src (k - off) else elem buf k := by
  unfold elem seqAcc
  simp only [List.getD_eq_getElem?_getD, List.getElem?_append, List.length_append,
    List.length_take, List.length_zipWith, List.length_drop, List.getElem?_take,
    List.getElem?_zipWith, List.getElem?_drop]
  by_cases h1 : k < off
  · rw [if_pos (by omega), if_pos (by omega), if_pos h1, if_neg (by omega)]
  · by_cases h2 : k < off + src.length
    · rw [if_pos (by omega), if_neg (by omega), if_pos (by omega)]
      have e1 : off + (k - min off buf.length) = k := by omega
      have e2 : k - min off buf.length = k - off := by omega
      have hk : k < buf.length := by omega
      have hs : k - off < src.length := by omega
      rw [e1, e2]
      simp [List.getElem?_eq_getElem hk, List.getElem?_eq_getElem hs]
    · rw [if_neg (by omega), if_neg (by omega)]
      congr 2
      omega

@[simp] theorem addAt_length (p : List Word) (k : Nat) (v : Word) :
    (addAt p k v).length = p.length := by simp [addAt]

@[simp] theorem conv4_length (red : Nat → Nat → Int → Word) (f g : List Word) :
    (conv4 red f g).length = 8 := by
  unfold conv4
  generalize conv4Pairs = l
  have h : ∀ p : List Word, p.length = 8 → (l.foldl
      (fun p ij => addAt p (ij.1 + ij.2) (red ij.1 ij.2 (elemInt f ij.1 * elemInt g ij.2)))
      p).length = 8 := by
    induction l with
    | nil => exact fun p hp => hp
    | cons c l ih => exact fun p hp => ih _ (by simpa using hp)
  exact h _ (by simp [Config.kbase])

theorem recombine_length {len : Nat} {a b c : List Word} (ha : a.length = 2 * len)
    (hb : b.length = 2 * len) (hc : c.length = 2 * len) :
    (recombine len a b c).length = 4 * len := by
  have hz : (seqAcc 0 a (seqZero (4 * len))).length = 4 * len := by
    rw [seqAcc_length] <;> simp; omega
  have hb' : (seqAcc (2 * len) b (seqAcc 0 a (seqZero (4 * len)))).length = 4 * len := by
    rw [seqAcc_length, hz]; omega
  have hn : (seqScale (-1) (seqAdd a b)).length = 2 * len := by simp [ha, hb]
  unfold recombine
  rw [seqAcc_length] <;> rw [seqAcc_length] <;> omega

theorem levelLen_succ (v : Nat) : levelLen (v + 1) = 2 * levelLen v := by
  simp [levelLen, Nat.pow_succ]; ring

/-- The product of a Karatsuba level is twice as long as its operands. -/
theorem kmul_length (v : Nat) (f g : List Word) (hf : f.length = levelLen v)
    (hg : g.length = levelLen v) : (kmul v f g).length = 2 * levelLen v := by
  induction v generalizing f g with
  | zero => simp [kmul, levelLen, Config.kbase]
  | succ v ih =>
    rw [levelLen_succ] at hf hg
    simp only [kmul]
    rw [recombine_length, levelLen_succ]
    · ring
    all_goals apply ih <;> simp <;> omega

@[simp] theorem block_length {b : Nat} {f : List Word} (h : 128 * b + 128 ≤ f.length) :
    (block b f).length = 128 := by
  simp [block, Config.bl]; omega

theorem atPoint_length {e : Nat} {f : List Word} (h : f.length = 768) :
    (atPoint e f).length = 128 := by
  unfold atPoint
  split
  · exact block_length (by omega)
  · split
    · exact block_length (by omega)
    · simp

theorem evalResult_length {e : Nat} {f g : List Word} (hf : f.length = 768)
    (hg : g.length = 768) : (evalResult e f g).length = 256 := by
  rw [evalResult, seqFreeze_length, kmul_length]
  · rfl
  · exact atPoint_length hf
  · exact atPoint_length hg

theorem t6eval_length {f g : List Word} (hf : f.length = 768) (hg : g.length = 768) :
    (t6eval f g).length = 2816 := by
  rw [t6eval, length_flatMap_range 11 256]
  exact fun k _ => evalResult_length hf hg

@[simp] theorem t6interp_length (free : Nat → Word) (blocks : List Word) :
    (t6interp free blocks).length = 2816 := by
  rw [t6interp, length_flatMap_range 11 256]
  simp

@[simp] theorem t6recon_length (free : Nat → Word) (blocks : List Word) :
    (t6recon free blocks).length = 1536 := by
  rw [t6recon, List.length_append, List.length_append, length_flatMap_range 10 128]
  · simp
  · simp

@[simp] theorem mul768_length (free : Nat → Word) (f g : List Word) :
    (mul768 free f g).length = 1536 := by simp [mul768]

end Sys2Proof.Machine
end

