-- ==== Sys2Proof/Tests/Slice0.lean ====
section
/-! SUPPORT. Tests of single steps, their expected results taken from the spec's test vectors
(95_test_vectors.md, named by their ids) and worked examples, and the witnesses of the statements:
concrete states and operands that meet all hypotheses of a statement together. -/

namespace Sys2Proof.Tests

open Sys2Proof.Machine

/-! ### Helpers -/

/-- The state after reset with these integers written to PMEM from these addresses on. -/
def holding (parts : List (Nat × List Int)) : State :=
  parts.foldl (fun s p => s.memWrite p.1 (p.2.map wrap32)) State.reset

/-- The state a command leaves. -/
def after (i : Instr) (s : State) : State :=
  match exec i s with
  | .next t => t
  | _ => s

/-- The state that one step leaves when the host issues a command word. -/
def issued (cmd : Command) (s : State) : State :=
  match step (s.issuing cmd) with
  | .next t => t
  | _ => s

/-- The signed values of a range of PMEM. -/
def ints (s : State) (a n : Nat) : List Int := (s.memRead a n).map BitVec.toInt

/-- The `STATUS` word after a command word is issued to a unit just reset. -/
def statusAfter (cmd : Command) : Word := (issued cmd State.reset).status

/-! ### Decoding: words written out bit by bit from 30_encoding.md R61, and from the vectors -/

/-- `op` 00001000, `dst` 8, `src1` 0, `s2` 000 then 4, `len` 0 (R61; vector C1). -/
theorem test_decode_conv4_bits :
    decode 0b0000100000000000010000000000000000000000000000010000000000000000 =
      .ok (.conv4 8 0 4) := by decide

/-- `op` 00000111, `dst` 4, `src1` 0, `s2` 1000000000000000, `len` 3 (R61, R64; 95 section 2.2). -/
theorem test_decode_vsmul_bits :
    decode 0b0000011100000000001000000000000000100000000000000000000000000011 =
      .ok (.vsmul 4 0 (-32768) 3) := by decide

/-- Formats `S` and `Z`: vectors F3, P1. -/
theorem test_decode_s_z : decode 0x01FFFFFFC0000000 = .ok (.frz 8191 8191) ∧
    decode 0x0200280000000003 = .ok (.vfrz 5 3) ∧
    decode 0x0300000000000600 = .ok (.vzero 0 1536) := by decide

/-- Formats `U`, `B` and `I`: vectors P5, P9, P7, P13. -/
theorem test_decode_u_b_i : decode 0x0401400A80000006 = .ok (.vcopy 40 42 6) ∧
    decode 0x0600A00540000001 = .ok (.vacc 20 21 1) ∧
    decode 0x0501980C800CC005 = .ok (.vadd 51 50 51 5) ∧
    decode 0x070000003FFFC004 = .ok (.vsmul 0 0 (-1) 4) := by decide

/-- Format `M`: the encodings of 95 sections 2.3, 2.4, 2.5, 2.7. -/
theorem test_decode_m : decode 0x08FFC7FF07FF0000 = .ok (.conv4 8184 8188 8188) ∧
    decode 0x0900800000020000 = .ok (.kmul8 16 0 8) ∧
    decode 0x0A01000000040000 = .ok (.kmul16 32 0 16) ∧
    decode 0x0B02000000080000 = .ok (.kmul32 64 0 32) ∧
    decode 0x0C04000000100000 = .ok (.kmul64 128 0 64) ∧
    decode 0x0DF807E007E00000 = .ok (.kmul128 7936 8064 8064) ∧
    decode 0x0E30000000C00000 = .ok (.t6eval 1536 0 768) ∧
    decode 0x11B8000000C00000 = .ok (.mul768 5888 0 768) := by decide

/-- Format `T`: the encodings of 95 section 2.6. -/
theorem test_decode_t : decode 0x0F88018000000000 = .ok (.t6interp 4352 1536) ∧
    decode 0x10D0054000000000 = .ok (.t6recon 6656 5376) := by decide

/-- The encoder gives the vectors' words. -/
theorem test_encode : encode (.frz 1 0) = 0x0100080000000000 ∧
    encode (.vsmul 4 0 (-32768) 3) = 0x0700200020000003 ∧
    encode (.kmul128 7936 8064 8064) = 0x0DF807E007E00000 ∧
    encode (.t6interp 4352 1536) = 0x0F88018000000000 := by decide

/-- The host's view of the decoder. -/
theorem test_decodeTableWord :
    decodeTableWord 64 0x1100000000C00000 = some (.mul768 0 0 768) ∧
    decodeTableWord 64 0 = none := by decide

/-! ### Well-formedness: an ill-formed command for each check, with the boundary it just crosses
(30_encoding.md R72; vectors E9 to E25) -/

theorem test_wf_len : ¬ (Instr.vfrz 0 0).WellFormed ∧ ¬ (Instr.vzero 0 0).WellFormed ∧
    ¬ (Instr.vcopy 0 0 0).WellFormed ∧ ¬ (Instr.vadd 0 0 0 0).WellFormed ∧
    ¬ (Instr.vacc 0 0 0).WellFormed ∧ ¬ (Instr.vsmul 0 0 (-1) 0).WellFormed ∧
    ¬ (Instr.vzero 0 16383).WellFormed ∧ (Instr.vzero 0 8192).WellFormed := by decide

theorem test_wf_elementwise : (Instr.frz 8191 8191).WellFormed ∧
    (Instr.vfrz 8188 4).WellFormed ∧ ¬ (Instr.vfrz 8189 4).WellFormed ∧
    (Instr.vzero 8188 4).WellFormed ∧ ¬ (Instr.vzero 8189 4).WellFormed ∧
    (Instr.vcopy 8188 8188 4).WellFormed ∧ ¬ (Instr.vcopy 8189 0 4).WellFormed ∧
    ¬ (Instr.vcopy 0 8189 4).WellFormed ∧ (Instr.vadd 8188 8188 8188 4).WellFormed ∧
    ¬ (Instr.vadd 8189 0 0 4).WellFormed ∧ ¬ (Instr.vadd 0 8189 0 4).WellFormed ∧
    ¬ (Instr.vadd 0 0 8189 4).WellFormed ∧ (Instr.vacc 8188 8188 4).WellFormed ∧
    ¬ (Instr.vacc 8189 0 4).WellFormed ∧ ¬ (Instr.vacc 0 8189 4).WellFormed ∧
    (Instr.vsmul 8188 8188 1 4).WellFormed ∧ ¬ (Instr.vsmul 8189 0 1 4).WellFormed ∧
    ¬ (Instr.vsmul 0 8189 1 4).WellFormed := by decide

theorem test_wf_conv4_kmul : (Instr.conv4 8184 8188 8188).WellFormed ∧
    ¬ (Instr.conv4 8185 0 0).WellFormed ∧ ¬ (Instr.conv4 0 8189 0).WellFormed ∧
    ¬ (Instr.conv4 0 0 8189).WellFormed ∧ (Instr.kmul8 8176 8184 8184).WellFormed ∧
    ¬ (Instr.kmul8 8177 0 0).WellFormed ∧ ¬ (Instr.kmul8 0 8185 0).WellFormed ∧
    ¬ (Instr.kmul8 0 0 8185).WellFormed ∧ (Instr.kmul16 8160 8176 8176).WellFormed ∧
    ¬ (Instr.kmul16 8161 0 0).WellFormed ∧ ¬ (Instr.kmul16 0 8177 0).WellFormed ∧
    ¬ (Instr.kmul16 0 0 8177).WellFormed ∧ (Instr.kmul32 8128 8160 8160).WellFormed ∧
    ¬ (Instr.kmul32 8129 0 0).WellFormed ∧ ¬ (Instr.kmul32 0 8161 0).WellFormed ∧
    ¬ (Instr.kmul32 0 0 8161).WellFormed ∧ (Instr.kmul64 8064 8128 8128).WellFormed ∧
    ¬ (Instr.kmul64 8065 0 0).WellFormed ∧ ¬ (Instr.kmul64 0 8129 0).WellFormed ∧
    ¬ (Instr.kmul64 0 0 8129).WellFormed ∧ (Instr.kmul128 7936 8064 8064).WellFormed ∧
    ¬ (Instr.kmul128 7937 0 0).WellFormed ∧ ¬ (Instr.kmul128 0 8065 0).WellFormed ∧
    ¬ (Instr.kmul128 0 0 8065).WellFormed := by decide

theorem test_wf_toom : (Instr.t6eval 5376 7424 7424).WellFormed ∧
    ¬ (Instr.t6eval 5377 0 0).WellFormed ∧ ¬ (Instr.t6eval 0 7425 0).WellFormed ∧
    ¬ (Instr.t6eval 0 0 7425).WellFormed ∧ (Instr.t6interp 5376 5376).WellFormed ∧
    ¬ (Instr.t6interp 5377 0).WellFormed ∧ ¬ (Instr.t6interp 0 5377).WellFormed ∧
    (Instr.t6recon 6656 5376).WellFormed ∧ ¬ (Instr.t6recon 6657 0).WellFormed ∧
    ¬ (Instr.t6recon 0 5377).WellFormed ∧ (Instr.mul768 6656 7424 7424).WellFormed ∧
    ¬ (Instr.mul768 6657 0 768).WellFormed ∧ ¬ (Instr.mul768 0 7425 0).WellFormed ∧
    ¬ (Instr.mul768 0 0 7425).WellFormed := by decide

/-! ### Errors (vectors of 95 section 2.8; program P4) -/

/-- Vectors E1 to E8: illegal opcodes and reserved fields. -/
theorem test_errors_decode : statusAfter 0x0000000000000000 = 3 ∧
    statusAfter 0x12FFFFFFFFFFFFFF = 3 ∧ statusAfter 0xFF00000000000000 = 3 ∧
    statusAfter 0x0300400040000004 = 5 ∧ statusAfter 0x01FFF80000000001 = 5 ∧
    statusAfter 0x0500000020000000 = 5 ∧ statusAfter 0x05FFF00008000004 = 5 ∧
    statusAfter 0x0800400000010005 = 5 := by decide

/-- Vectors E9 to E21: bad ranges. -/
theorem test_errors_range : statusAfter 0x0300000000000000 = 7 ∧
    statusAfter 0x070000003FFFC000 = 7 ∧ statusAfter 0x03FFF00000000004 = 7 ∧
    statusAfter 0x05FFF00000000004 = 7 ∧ statusAfter 0x0300080000002000 = 7 ∧
    statusAfter 0x0300000000003FFF = 7 ∧ statusAfter 0x11D0080000C00000 = 7 ∧
    statusAfter 0x0FA8080000000000 = 7 ∧ statusAfter 0x10D0080000000000 = 7 ∧
    statusAfter 0x1000054040000000 = 7 ∧ statusAfter 0x0DF8080000000000 = 7 ∧
    statusAfter 0x0D0007E040000000 = 7 ∧ statusAfter 0x0800000007FF4000 = 7 := by decide

/-- Program P4, rows 1, 2 and 3: the first code is kept, and a clear forgets it. -/
theorem test_error_sticky :
    (issued 0x0300000000000000 (issued 0 State.reset)).status = 3 ∧
    (issued 0 State.reset).statusClear.status = 0 := by decide

/-- Program P4, row 7: a command runs although `ERR` is 1, and does not clear it. -/
theorem test_error_blocks_nothing :
    let t := issued 0x0400400000000004 (issued 0x03FFF00000000004 (holding [(0, [1, 2, 3, 4])]))
    ints t 8 4 = [1, 2, 3, 4] ∧ t.status = 7 := by decide

/-! ### Single commands -/

/-- Vector F1. -/
theorem test_frz : ints (issued 0x0100080000000000 (holding [(0, [-100000])])) 0 2 =
    [-100000, 8119] := by decide

/-- Vector F3: the highest address, the lower end of the domain. -/
theorem test_frz_high : ints (issued 0x01FFFFFFC0000000 (holding [(8191, [-165191049])])) 8191 1 =
    [4954] := by decide

/-- Vector F4. -/
theorem test_vfrz : ints (issued 0x0200280000000003 (holding [(5, [9829, -1, 19656])])) 5 3 =
    [0, 9828, 9827] := by decide

/-- Vector E22: a range that ends exactly at word 8192. -/
theorem test_vzero : ints (issued 0x03FFE00000000004 (holding [(8187, [5, 6, 7, 8, 9])])) 8187 5 =
    [5, 0, 0, 0, 0] := by decide

/-- Vector P4: the destination above the source, ascending. -/
theorem test_vcopy_up :
    ints (issued 0x0401500A00000006 (holding [(40, [1, 2, 3, 4, 5, 6, 7, 8])])) 40 8 =
      [1, 2, 1, 2, 1, 2, 1, 2] := by decide

/-- Vector P5: the destination below the source. -/
theorem test_vcopy_down :
    ints (issued 0x0401400A80000006 (holding [(40, [1, 2, 3, 4, 5, 6, 7, 8])])) 40 8 =
      [3, 4, 5, 6, 7, 8, 7, 8] := by decide

/-- Vector P6. -/
theorem test_vadd :
    ints (issued 0x0500800000020002 (holding [(0, [9828, 5]), (8, [9828, -7])])) 16 2 =
      [9827, 9827] := by decide

/-- Vector P7: a running sum, `dst = src2` and `src1` one below. -/
theorem test_vadd_overlap :
    ints (issued 0x0501980C800CC005 (holding [(50, [1, 1, 1, 1, 1, 1])])) 50 6 =
      [1, 2, 3, 4, 5, 6] := by decide

/-- Vector P9: wraps. -/
theorem test_vacc_wraps :
    ints (issued 0x0600A00540000001 (holding [(20, [2147483647, 1])])) 20 1 = [-2147483648] := by
  decide

/-- Vector P11: `dst = src1` doubles, not reduced. -/
theorem test_vacc_doubles :
    ints (issued 0x0600F00780000003 (holding [(30, [1, -2, 9828])])) 30 3 = [2, -4, 19656] := by
  decide

/-- Vector P13: `VNEG`, in place. -/
theorem test_vsmul_neg :
    ints (issued 0x070000003FFFC004 (holding [(0, [0, 1, 9828, 4915])])) 0 4 =
      [0, 9828, 1, 4914] := by decide

/-- Vector P19: the largest immediate. -/
theorem test_vsmul_big :
    ints (issued 0x070020001FFFC002 (holding [(0, [5041, -5041])])) 4 2 = [2102, 7727] := by decide

/-- Vector C4. -/
theorem test_conv4 :
    ints (issued 0x0800400000010000
      (holding [(0, [9828, 1234, 5000, 77, 4321, 9000, 2, 9828])])) 8 8 =
      [5508, 5625, 19744, 13667, 13736, 4983, 9752, 0] := by decide +kernel

/-- 95 section 2.3: the destination over both sources (a snapshot), result C1. -/
theorem test_conv4_snapshot :
    ints (issued 0x0800000000010000 (holding [(0, [1, 2, 3, 4, 5, 6, 7, 8])])) 0 8 =
      [5, 16, 34, 60, 61, 52, 32, 0] := by decide +kernel

/-- Vector K1. -/
theorem test_kmul8 :
    ints (issued 0x0900800000020000
      (holding [(0, [1, 2, 3, 4, 5, 6, 7, 8]), (8, [8, 7, 6, 5, 4, 3, 2, 1])])) 16 16 =
      [8, 23, 44, 70, 9929, 9962, 9997, 10033, 9997, 9962, 9929, 70, 44, 23, 8, 0] := by
  decide +kernel

/-- Vector K4: raw words of an impulse through `KMUL16`. -/
theorem test_kmul16 :
    ints (issued 0x0A01000000040000
      (holding [(0, [1, 0, 0, 0, 0, 0, 0, 0, 0, 0, 0, 0, 0, 0, 0, 0, 5, 53, 175, 371, 641, 985,
        1403, 1895, 2461, 3101, 3815, 4603, 5465, 6401, 7411, 8495])])) 32 17 =
      [5, 53, 175, 371, 10470, 10814, 11232, 11724, 12290, 12930, 13644, 14432, 25123, 16230,
        17240, 18324, 0] := by decide +kernel

/-- The operands of vector K5. -/
def k5F (n : Nat) : List Word :=
  (List.range n).map fun i => BitVec.ofNat 32 ((7 * i ^ 2 + 3 * i + 11) % 9829)

/-- The operands of vector K5. -/
def k5G (n : Nat) : List Word :=
  (List.range n).map fun i => BitVec.ofNat 32 ((i ^ 3 + 5 * i + 2) % 9829)

/-- Vector K5 at `n = 32`: the sum of the raw output. -/
theorem test_kmul32 : ((kmul 3 (k5F 32) (k5G 32)).map BitVec.toInt).sum = 2662510 := by
  decide +kernel

/-- Vector K5 at `n = 64`: the sum of the raw output. -/
theorem test_kmul64 : ((kmul 4 (k5F 64) (k5G 64)).map BitVec.toInt).sum = 8648974 := by
  decide +kernel

/-- The operand of vector T1. -/
def t1 : List Word :=
  (List.range 768).map fun i => if i % 128 = 0 then BitVec.ofNat 32 (i / 128 + 1) else 0

/-- Vector T1: the operand at the eleven points. -/
theorem test_atPoint : (List.range 11).map (fun e => elemInt (atPoint e t1) 0) =
    [1, 21, 9826, 321, 9694, 2005, 8690, 7737, 4750, 2803, 6] := by decide +kernel

/-- Vector I1: the column of `E_0[0]` to `E_10[0]` interpolates to 2, 3, 4, 5, 6, 0, 0, 0, 0. -/
theorem test_interpWord :
    (List.range 9).map (fun k => (interpWord (k + 1)
      [1, 21, 9826, 321, 9694, 2005, 8690, 7737, 4750, 2803, 0]).toInt) =
      [2, 3, 4, 5, 6, 0, 0, 0, 0] := by decide +kernel

/-- Vector I4: the even rows are 0 at the point +5. -/
theorem test_interpWord_zero :
    (List.range 9).map (fun k => (interpWord (k + 1) [0, 0, 0, 0, 0, 0, 0, 0, 0, 1, 0]).toInt) =
      [3916, 0, 2889, 0, 9023, 0, 4301, 0, 9358] := by decide +kernel

/-- The blocks of vector I3. -/
def i3 : List Word := (List.range 2816).map fun n =>
  let k := n / 256
  let i := n % 256
  BitVec.ofNat 32
    (if i = 0 then k + 1 else if i = 128 then 9828 - k else if i = 255 then 100 + k else 0)

/-- Vector I3: an edge, both ends of an interior segment, the other edge. -/
theorem test_t6recon : [0, 128, 255, 1408, 1535].map (elemInt (t6recon (fun _ => 0) i3)) =
    [1, 1, 100, 9818, 110] := by decide +kernel

/-! ### Transactions, steps and the assembler -/

/-- A command handed over by the host runs as the first after reset. -/
theorem test_step_from_reset :
    step (State.reset.withFetchWord 64 0x0300080000000002) =
      .next ((State.reset.writeWord 1 0).writeWord 2 0) := rfl

/-- 20_memory.md R41: what was written is returned; `status_read()` returns `STATUS`. -/
theorem test_transactions :
    Sys2Proof.core.run 2 { State.reset with host := [.pmemWrite 7 9, .pmemRead 7] } =
      .next { State.reset with pmem := [(7, 9)], reply := some 9 } ∧
    Sys2Proof.core.run 2 { State.reset with host := [.issue 0, .statusRead] } =
      .next { State.reset with status := 3, reply := some 3 } := by
  constructor <;> rfl

/-- 30_encoding.md R76, R77: wrong operands do not assemble. -/
theorem test_assembler_refuses : assembleLine "VZERO 0".toList = none ∧
    assembleLine "VSMUL 4, 0, #40000, 3".toList = none ∧
    assembleLine "NOP".toList = none := by decide

/-- Log 15, the model's choice: no plus sign in an immediate. -/
theorem test_assembler_plus : assembleLine "VSMUL 4, 0, #+5, 3".toList = none ∧
    assembleLine "VSMUL 4, 0, #5, 3".toList = some (.vsmul 4 0 5 3) := by decide

/-! ### Witnesses: the operands -/

/-- A canonical range of zeros. -/
def zeros (a n : Nat) : State := State.reset.memWrite a (seqZero n)

theorem allCanonical_seqZero (n : Nat) : AllCanonical (seqZero n) := by
  rw [allCanonical_iff]
  intro w hw
  obtain ⟨-, rfl⟩ := List.mem_replicate.mp hw
  decide

theorem memRead_zeros (a n : Nat) : (zeros a n).memRead a n = seqZero n := by
  have h := State.memRead_memWrite State.reset a (seqZero n)
  rwa [seqZero_length] at h

theorem canonical_zeros (a n : Nat) : AllCanonical ((zeros a n).memRead a n) := by
  rw [memRead_zeros]; exact allCanonical_seqZero n

/-- The operand that is `m` at index `p` and 0 elsewhere. -/
def impulse (p : Nat) (m : Word) : List Word :=
  (List.range 768).map fun i => if i = p then m else 0

/-- The impulse at words 0 to 767 and zeros at words 768 to 1535. -/
def impulseState (p : Nat) (m : Word) : State :=
  (State.reset.memWrite 0 (impulse p m)).memWrite 768 (seqZero 768)

theorem impulseState_source (p : Nat) (m : Word) (i : Nat) (h : i < 768) :
    (impulseState p m).readWord (0 + i) = if i = p then m else 0 := by
  rw [impulseState, State.readWord_memWrite, if_neg (by omega), State.readWord_memWrite,
    if_pos (by simp [impulse]; omega)]
  simp only [Nat.zero_add, Nat.sub_zero]
  exact elem_map_range 768 _ h

theorem impulseState_canonical (p : Nat) (m : Word) :
    AllCanonical ((impulseState p m).memRead 768 768) := by
  have h := State.memRead_memWrite (State.reset.memWrite 0 (impulse p m)) 768 (seqZero 768)
  rw [seqZero_length] at h
  rw [impulseState, h]
  exact allCanonical_seqZero 768

/-- A state whose host has this transaction next and one more after it. -/
def pending (t : Transaction) : State := { State.reset with host := [t, .statusRead] }

/-! ### Witnesses: encoding -/

theorem witness_EncodeInvertsDecode : decode 0x0100080000000000 = .ok (.frz 1 0) := by decide

theorem witness_InstanceExactlyUnderMask :
    (∃ i, decode 0x0100080000000000 = .ok i ∧ opIn i = .frz) ∧
    (0x0100080000000000 : Command) &&& maskOf (formatOf .frz) =
      (opcode .frz).setWidth 64 <<< 56 := ⟨⟨.frz 1 0, by decide, rfl⟩, by decide⟩

/-- Both clauses, the second at its least and greatest opcode. -/
theorem witness_IllegalOpcodesRefused : opField 0 = 0 ∧
    0x12 ≤ (opField 0x1200000000000000).toNat ∧ 0x12 ≤ (opField 0xFF00000000000000).toNat := by
  decide

theorem witness_ReservedBitsRefused : opField 0x0300400040000004 = opcode .vzero ∧
    (0x0300400040000004 : Command) &&& maskOf (formatOf .vzero) ≠
      (opcode .vzero).setWidth 64 <<< 56 := by decide

/-- The two sides of the check for a command of each kind; `test_wf_elementwise`,
`test_wf_conv4_kmul` and `test_wf_toom` show the boundary of every clause. -/
theorem witness_BadRangeExactly :
    ((0 : Len).toNat = 0 ∨ (0 : Addr).toNat + (0 : Len).toNat > 8192) ∧
    ¬ ((4 : Len).toNat = 0 ∨ (8188 : Addr).toNat + (4 : Len).toNat > 8192) ∧
    ((6657 : Addr).toNat + 1536 > 8192 ∨ (0 : Addr).toNat + 768 > 8192 ∨
      (768 : Addr).toNat + 768 > 8192) ∧
    ¬ ((6656 : Addr).toNat + 1536 > 8192 ∨ (7424 : Addr).toNat + 768 > 8192 ∨
      (7424 : Addr).toNat + 768 > 8192) := by decide

/-! ### Witnesses: transactions and steps -/

/-- One word for each clause: a command with legal ranges, one with `len` 0, a word that does not
decode. -/
theorem witness_StepRunsDecodedCommand :
    (pending (.issue 0x0100080000000000)).host = [.issue 0x0100080000000000, .statusRead] ∧
    decode 0x0100080000000000 = .ok (.frz 1 0) ∧
    (pending (.issue 0x0300000000000000)).host = [.issue 0x0300000000000000, .statusRead] ∧
    decode 0x0300000000000000 = .ok (.vzero 0 0) ∧ ¬ (Instr.vzero 0 0).WellFormed ∧
    (pending (.issue 0)).host = [.issue 0, .statusRead] ∧
    decode 0 = .error .illegalOpcode := by
  refine ⟨rfl, rfl, rfl, rfl, by decide, rfl, rfl⟩

theorem witness_PmemWriteStoresOneWord :
    (pending (.pmemWrite 8191 5)).host = [.pmemWrite 8191 5, .statusRead] := rfl

theorem witness_PmemReadReturnsTheWord :
    (pending (.pmemRead 8191)).host = [.pmemRead 8191, .statusRead] := rfl

/-- With the inner hypothesis, that the status is legal. -/
theorem witness_StatusReadReturnsFields :
    (pending .statusRead).host = [.statusRead, .statusRead] ∧
    StatusLegal (pending .statusRead).status := by decide

theorem witness_StatusClearClearsErrors :
    (pending .statusClear).host = [.statusClear, .statusRead] := rfl

theorem witness_ResetTransactionClearsAll :
    (pending .reset).host = [.reset, .statusRead] := rfl

theorem witness_IdleChangesNothing : State.reset.host = [] := rfl

/-- A legal state with an error pending that takes a step. -/
theorem witness_StepKeepsStateLegal :
    Inv { pending (.pmemWrite 8191 5) with status := 3, pmem := [(0, 1), (8190, 2)] } ∧
    ∃ t, step { pending (.pmemWrite 8191 5) with status := 3, pmem := [(0, 1), (8190, 2)] } =
      .next t := ⟨by decide, _, rfl⟩

/-! ### Witnesses: errors -/

/-- One state for each value of `ERR`, and a word that does not decode. -/
theorem witness_ErrorEntryTouchesOnlyStatus : errOf State.reset.status = false ∧
    errOf ({ State.reset with status := 5 } : State).status = true ∧
    decode 0 = .error .illegalOpcode := by
  refine ⟨by decide, by decide, rfl⟩

theorem witness_ErrorsAreSticky : (Instr.vzero 8188 4).WellFormed := by decide

theorem witness_SecondErrorKeepsFirstCode :
    StatusLegal ({ State.reset with status := 5 } : State).status ∧
    errOf ({ State.reset with status := 5 } : State).status = true := by decide

theorem witness_OnlyClearOrResetClearsErrors :
    StatusLegal ({ pending .statusClear with status := 5 } : State).status ∧
    errOf ({ pending .statusClear with status := 5 } : State).status = true ∧
    ∃ t, step { pending .statusClear with status := 5 } = .next t := ⟨by decide, by decide, _, rfl⟩

/-! ### Witnesses: reduction -/

/-- Both ends of the domain, and an integer of the uniqueness clause. -/
theorem witness_ReduceMeetsContract : ((-165191050 : Int) < 165191049 ∧
    (165191049 : Int) < 165191050) ∧ ((-165191050 : Int) < -165191049 ∧
    (-165191049 : Int) < 165191050) ∧
    ((0 : Int) ≤ 4875 ∧ (4875 : Int) < 9829 ∧ (4875 : Int) % 9829 = 165191049 % 9829) := by decide

theorem witness_DatapathHasValueOfReduce : InDomain (165191049 : Word).toInt ∧
    InDomain (-165191049 : Word).toInt := by decide

theorem witness_DatapathRanges : ∀ x : Word, x = 165191049 ∨ x = -165191049 →
    ∃ q1 x1 q2 x2 : Word, InDomain x.toInt ∧ q1 = (13 * x).sshiftRight 17 ∧
      x1 = datapathStep1 x ∧ q2 = (427 * x1 + 2097152).sshiftRight 22 ∧ x2 = datapathStep2 x1 := by
  rintro x (rfl | rfl) <;> exact ⟨_, _, _, _, by decide, rfl, rfl, rfl, rfl⟩

theorem witness_ReduceLaws : InDomain (-165191049) ∧ ((0 : Int) ≤ 9828 ∧ (9828 : Int) < 9829) ∧
    (InDomain 165191049 ∧ InDomain (165191049 + 9829 * (-33612))) := by decide

theorem witness_FrzReducesOneWord :
    InDomain ((holding [(8191, [-165191049])]).readWord (8191 : Addr).toNat).toInt := by decide

theorem witness_VfrzCanonicalizesInPlace : (2 : Len).toNat ≠ 0 ∧
    (8190 : Addr).toNat + (2 : Len).toNat ≤ 8192 ∧ 1 < (2 : Len).toNat ∧
    InDomain ((holding [(8190, [1, -165191049])]).readWord ((8190 : Addr).toNat + 1)).toInt := by
  decide

/-! ### Witnesses: primitives

The state a command leaves is `after i s`, so that the words it sees are concrete. -/

theorem witness_VzeroStoresZeros : (8192 : Len).toNat ≠ 0 ∧
    (0 : Addr).toNat + (8192 : Len).toNat ≤ 8192 ∧ 8191 < (8192 : Len).toNat := by decide

theorem witness_VcopyCopiesAscending : (6 : Len).toNat ≠ 0 ∧
    (8186 : Addr).toNat + (6 : Len).toNat ≤ 8192 ∧ (8184 : Addr).toNat + (6 : Len).toNat ≤ 8192 ∧
    5 < (6 : Len).toNat := by decide

/-- An overlapping addition whose last sum is in the domain. -/
theorem witness_VaddAddsAndReduces :
    let s := holding [(50, [1, 1, 1, 1, 1, 1])]
    let t := after (.vadd 51 50 51 5) s
    (5 : Len).toNat ≠ 0 ∧ (51 : Addr).toNat + (5 : Len).toNat ≤ 8192 ∧
    (50 : Addr).toNat + (5 : Len).toNat ≤ 8192 ∧ 4 < (5 : Len).toNat ∧
    InDomain ((seenAt s t (51 : Addr).toNat 4 ((50 : Addr).toNat + 4)).toInt +
      (seenAt s t (51 : Addr).toNat 4 ((51 : Addr).toNat + 4)).toInt) := by decide

theorem witness_VaccAccumulatesWrapping : (1 : Len).toNat ≠ 0 ∧
    (8191 : Addr).toNat + (1 : Len).toNat ≤ 8192 ∧ (0 : Addr).toNat + (1 : Len).toNat ≤ 8192 ∧
    0 < (1 : Len).toNat := by decide

theorem witness_VsmulScalesAndReduces :
    let s := holding [(0, [5041, -5041])]
    let t := after (.vsmul 4 0 32767 2) s
    (2 : Len).toNat ≠ 0 ∧ (4 : Addr).toNat + (2 : Len).toNat ≤ 8192 ∧
    (0 : Addr).toNat + (2 : Len).toNat ≤ 8192 ∧ 1 < (2 : Len).toNat ∧
    InDomain ((32767 : Imm).toInt *
      (seenAt s t (4 : Addr).toNat 1 ((0 : Addr).toNat + 1)).toInt) := by decide

/-- Each way to overlap safely, at its boundary, with the sums and products in the domain. -/
theorem witness_SafeOverlapUsesOriginalWords :
    let s := holding [(0, [1, 2, 3, 4])]
    (2 : Len).toNat ≠ 0 ∧ (1 : Addr).toNat + (2 : Len).toNat ≤ 8192 ∧
    (2 : Addr).toNat + (2 : Len).toNat ≤ 8192 ∧
    ((1 : Addr).toNat ≤ (1 : Addr).toNat ∨ (1 : Addr).toNat + (2 : Len).toNat ≤ (1 : Addr).toNat) ∧
    ((1 : Addr).toNat ≤ (2 : Addr).toNat ∨ (2 : Addr).toNat + (2 : Len).toNat ≤ (1 : Addr).toNat) ∧
    ((2 : Addr).toNat ≤ (0 : Addr).toNat ∨ (0 : Addr).toNat + (2 : Len).toNat ≤ (2 : Addr).toNat) ∧
    1 < (2 : Len).toNat ∧
    InDomain ((s.readWord ((1 : Addr).toNat + 1)).toInt +
      (s.readWord ((2 : Addr).toNat + 1)).toInt) ∧
    InDomain ((-1 : Imm).toInt * (s.readWord ((1 : Addr).toNat + 1)).toInt) := by decide

theorem witness_CopyUpwardRepeats : (6 : Len).toNat ≠ 0 ∧
    (8186 : Addr).toNat + (6 : Len).toNat ≤ 8192 ∧ (8184 : Addr).toNat < (8186 : Addr).toNat ∧
    (8186 : Addr).toNat < (8184 : Addr).toNat + (6 : Len).toNat ∧ 5 < (6 : Len).toNat := by decide

/-- The second word is a multiple of 9829. -/
theorem witness_VnegNegates :
    let s := holding [(0, [1, -9829])]
    let t := after (vneg 0 0 2) s
    (2 : Len).toNat ≠ 0 ∧ (0 : Addr).toNat + (2 : Len).toNat ≤ 8192 ∧ 1 < (2 : Len).toNat ∧
    InDomain (seenAt s t (0 : Addr).toNat 1 ((0 : Addr).toNat + 1)).toInt ∧
    9829 ∣ (seenAt s t (0 : Addr).toNat 1 ((0 : Addr).toNat + 1)).toInt := by decide

/-- Both clauses at their boundary: the longest sum of the first, every word of it the largest
canonical one, and the sum that the next word of 9828 takes outside the domain. -/
theorem witness_AccumulationBudget :
    (∃ l : List Word, AllCanonical l ∧ l.length ≤ 16807 ∧
      let s := holding [(0, [16807 * 9828, 9828])]
      let t := after (.vacc 0 1 1) s
      (1 : Len).toNat ≠ 0 ∧ (0 : Addr).toNat + (1 : Len).toNat ≤ 8192 ∧
      (1 : Addr).toNat + (1 : Len).toNat ≤ 8192 ∧ 0 < (1 : Len).toNat ∧
      (s.readWord ((0 : Addr).toNat + 0)).toInt = (l.map BitVec.toInt).sum ∧
      Canonical (seenAt s t (0 : Addr).toNat 0 ((1 : Addr).toNat + 0))) ∧
    (let s := holding [(0, [16808 * 9828, 9828])]
     let t := after (.vacc 0 1 1) s
     (s.readWord ((0 : Addr).toNat + 0)).toInt = 16808 * 9828 ∧
      seenAt s t (0 : Addr).toNat 0 ((1 : Addr).toNat + 0) = 9828) := by
  refine ⟨⟨List.replicate 16807 9828, ?_, List.length_replicate.le, by decide, by decide,
    by decide, by decide, ?_, by decide⟩, by decide⟩
  · rw [allCanonical_iff]
    intro w hw
    obtain ⟨-, rfl⟩ := List.mem_replicate.mp hw
    decide
  · rw [List.map_replicate, List.sum_replicate]
    decide

/-! ### Witnesses: multiplication -/

/-- At the highest addresses; all products at `k = 3` in the domain. -/
theorem witness_Conv4SumsReducedProducts :
    let s := holding [(8188, [9828, -5, 3, 9829])]
    (8184 : Addr).toNat + 8 ≤ 8192 ∧ (8188 : Addr).toNat + 4 ≤ 8192 ∧ 3 < 8 ∧
    ∀ i < 4, ∀ j < 4, i + j = 3 →
      InDomain ((s.readWord ((8188 : Addr).toNat + i)).toInt *
        (s.readWord ((8188 : Addr).toNat + j)).toInt) := by decide

theorem witness_Conv4Convolves :
    let s := holding [(8188, [9828, 9828, 0, 1])]
    (8184 : Addr).toNat + 8 ≤ 8192 ∧ (8188 : Addr).toNat + 4 ≤ 8192 ∧
    AllCanonical (s.memRead (8188 : Addr).toNat 4) ∧ 7 < 8 := by decide

/-- At the lowest and the highest level. -/
theorem witness_KaratsubaClosedForm : ∀ v, v = 0 ∨ v = 4 → ∃ f g a b c : List Word,
    v < 5 ∧ AllCanonical f ∧ AllCanonical g ∧
    f.length = levelLen (v + 1) ∧ g.length = levelLen (v + 1) ∧
    a = kmul v (f.take (levelLen v)) (g.take (levelLen v)) ∧
    b = kmul v (f.drop (levelLen v)) (g.drop (levelLen v)) ∧
    c = kmul v (seqAdd (f.take (levelLen v)) (f.drop (levelLen v)))
      (seqAdd (g.take (levelLen v)) (g.drop (levelLen v))) ∧
    4 * levelLen v - 1 < 4 * levelLen v := by
  intro v hv
  refine ⟨seqZero (levelLen (v + 1)), seqZero (levelLen (v + 1)), _, _, _, ?_,
    allCanonical_seqZero _, allCanonical_seqZero _, seqZero_length _, seqZero_length _,
    rfl, rfl, rfl, ?_⟩
  · omega
  · rcases hv with rfl | rfl <;> decide

theorem witness_KaratsubaBounds : 5 ≤ 5 ∧ AllCanonical (seqZero 128) ∧
    (seqZero 128).length = levelLen 5 := ⟨le_rfl, allCanonical_seqZero 128, seqZero_length 128⟩

theorem witness_KaratsubaConvolves : 5 ≤ 5 ∧ AllCanonical (seqZero 128) ∧
    (seqZero 128).length = levelLen 5 ∧ 255 < 2 * levelLen 5 :=
  ⟨le_rfl, allCanonical_seqZero 128, seqZero_length 128, by decide⟩

/-- The five levels, and the largest of them at the highest addresses. -/
theorem witness_KaratsubaCommandsRun :
    (∀ v, 1 ≤ v → v ≤ 5 → (0 : Addr).toNat + 2 * levelLen v ≤ 8192 ∧
      (0 : Addr).toNat + levelLen v ≤ 8192 ∧
      AllCanonical ((zeros 0 (levelLen v)).memRead (0 : Addr).toNat (levelLen v))) ∧
    (7936 : Addr).toNat + 2 * levelLen 5 ≤ 8192 ∧ (8064 : Addr).toNat + levelLen 5 ≤ 8192 ∧
    AllCanonical ((zeros 8064 128).memRead (8064 : Addr).toNat (levelLen 5)) := by
  refine ⟨fun v h1 h2 => ⟨?_, ?_, canonical_zeros 0 _⟩, by decide, by decide,
    canonical_zeros 8064 128⟩
  · interval_cases v <;> decide
  · interval_cases v <;> decide

/-! ### Witnesses: Toom-6 -/

theorem witness_OperandAtPoint : AllCanonical (seqZero 768) ∧ (seqZero 768).length = 768 ∧
    (1 ≤ 9 ∧ 9 ≤ 9) ∧ 127 < 128 := ⟨allCanonical_seqZero 768, seqZero_length 768, by decide⟩

theorem witness_T6evalStoresPointProducts : (5376 : Addr).toNat + 2816 ≤ 8192 ∧
    (7424 : Addr).toNat + 768 ≤ 8192 ∧
    AllCanonical ((zeros 7424 768).memRead (7424 : Addr).toNat 768) ∧ 10 < 11 ∧ 255 < 256 :=
  ⟨by decide, by decide, canonical_zeros 7424 768, by decide, by decide⟩

theorem zeros_readWord {a n b : Nat} (h1 : a ≤ b) (h2 : b < a + n) :
    (zeros a n).readWord b = 0 := by
  rw [zeros, State.readWord_memWrite, if_pos (by simpa using ⟨h1, h2⟩), elem_seqZero]

theorem witness_T6interpCombinesColumns : (0 : Addr).toNat + 2816 ≤ 8192 ∧
    (5376 : Addr).toNat + 2816 ≤ 8192 ∧ 255 < 256 ∧ (1 ≤ 9 ∧ 9 ≤ 9) ∧
    ∀ e < 11, Canonical ((zeros 5376 2816).readWord ((5376 : Addr).toNat + 256 * e + 255)) := by
  refine ⟨by decide, by decide, by decide, by decide, fun e he => ?_⟩
  rw [zeros_readWord (by simp; omega) (by simp; omega)]
  decide

theorem witness_T6reconOverlapAdds : (6656 : Addr).toNat + 1536 ≤ 8192 ∧
    (5376 : Addr).toNat + 2816 ≤ 8192 ∧ 127 < 128 ∧ (1 ≤ 10 ∧ 10 ≤ 10) ∧
    InDomain (((zeros 5376 2816).readWord ((5376 : Addr).toNat + 256 * 10 + 127)).toInt +
      ((zeros 5376 2816).readWord ((5376 : Addr).toNat + 256 * (10 - 1) + 128 + 127)).toInt) := by
  refine ⟨by decide, by decide, by decide, by decide, ?_⟩
  rw [zeros_readWord (by simp) (by simp), zeros_readWord (by simp) (by simp)]
  decide

/-! ### Witnesses: the multiplier and every command -/

theorem witness_Mul768Multiplies : (6656 : Addr).toNat + 1536 ≤ 8192 ∧
    (7424 : Addr).toNat + 768 ≤ 8192 ∧
    AllCanonical ((zeros 7424 768).memRead (7424 : Addr).toNat 768) ∧ 1535 < 1536 :=
  ⟨by decide, by decide, canonical_zeros 7424 768, by decide⟩

theorem witness_Mul768Commutes : (6656 : Addr).toNat + 1536 ≤ 8192 ∧
    (7424 : Addr).toNat + 768 ≤ 8192 ∧
    AllCanonical ((zeros 7424 768).memRead (7424 : Addr).toNat 768) :=
  ⟨by decide, by decide, canonical_zeros 7424 768⟩

/-- Impulses at both ends, and the zero operand. -/
theorem witness_Mul768ShiftsByImpulse :
    ∀ c : Nat × Word, c = (0, 1) ∨ c = (767, 1) ∨ c = (767, 0) →
    (1536 : Addr).toNat + 1536 ≤ 8192 ∧ (0 : Addr).toNat + 768 ≤ 8192 ∧
    (768 : Addr).toNat + 768 ≤ 8192 ∧ c.1 < 768 ∧ (c.2 = 0 ∨ c.2 = 1) ∧
    (∀ i < 768, (impulseState c.1 c.2).readWord ((0 : Addr).toNat + i) =
      if i = c.1 then c.2 else 0) ∧
    AllCanonical ((impulseState c.1 c.2).memRead (768 : Addr).toNat 768) := by
  intro c hc
  refine ⟨by decide, by decide, by decide, ?_, ?_, impulseState_source c.1 c.2,
    impulseState_canonical c.1 c.2⟩
  · rcases hc with rfl | rfl | rfl <;> decide
  · rcases hc with rfl | rfl | rfl <;> decide

/-- With the temporaries over the result and the operands. -/
theorem witness_StagesEqualMul768 : (6656 : Addr).toNat + 1536 ≤ 8192 ∧
    (5376 : Addr).toNat + 2816 ≤ 8192 ∧ (7424 : Addr).toNat + 768 ≤ 8192 ∧
    AllCanonical ((zeros 7424 768).memRead (7424 : Addr).toNat 768) ∧ 1535 < 1536 :=
  ⟨by decide, by decide, by decide, canonical_zeros 7424 768, by decide⟩

/-- A command of each kind and an address outside its destination. -/
theorem witness_CommandsStoreOnlyToDst : (Instr.vzero 8188 4).WellFormed ∧
    ¬ (Instr.vzero 8189 4).WellFormed ∧ ¬ inRange (dstRange (.vzero 8188 4)) 8187 := by decide

/-- Two states that differ in `STATUS` and outside what the command reads. -/
theorem witness_ResultDependsOnSourcesOnly :
    let s := holding [(0, [1, 2, 3, 4])]
    let s' := ({ s.writeWord 100 5 with status := 3 } : State)
    (Instr.vcopy 10 0 4).WellFormed ∧ s.draws = s'.draws ∧
    (∀ r ∈ readRanges (.vcopy 10 0 4), ∀ a, inRange r a → s'.readWord a = s.readWord a) ∧
    inRange (dstRange (.vcopy 10 0 4)) 13 := by
  refine ⟨by decide, rfl, ?_, by decide⟩
  intro r hr a ha
  simp only [readRanges, readsDst, srcRanges, Bool.false_eq_true, if_false, List.mem_singleton]
    at hr
  subst hr
  obtain ⟨-, h⟩ := ha
  have h : a < 4 := by simpa using h
  have : a ≠ 100 := by omega
  change (State.writeWord _ 100 5).readWord a = _
  rw [State.readWord_writeWord, if_neg this]

end Sys2Proof.Tests
end

/-! The state of the unit (10_state.md): what every command, transaction and step does to it, that
a legal state stays legal, the reset state, the `STATUS` word, and the two constant tables. -/

namespace Sys2Proof

open Sys2Proof.Machine

/-! ### Effects that store to one range -/

/-- What a command does whose ranges are legal: it stores to its destination range `r` alone
(20_memory.md R46), and keeps PMEM in canonical form when the range ends inside PMEM. -/
structure StoresIn (r : Range) (s t : State) : Prop where
  frame : FrameOutside r s t
  wf : r.base + r.size ≤ Config.pmemWords → Memory.wf s.pmem → Memory.wf t.pmem

theorem StoresIn.status_eq {r : Range} {s t : State} (h : StoresIn r s t) :
    t.status = s.status := by
  obtain ⟨-, hstatus, -⟩ := h.frame
  exact hstatus

/-- An elementwise command stores to its destination range (20_memory.md R47). -/
theorem storesIn_elementwise (s : State) (dst n : Nat) (val : Nat → State → Word) :
    StoresIn ⟨dst, n⟩ s (s.elementwise dst n val) where
  frame := ⟨fun _ ha => State.readWord_elementwise_outside s dst n val ha,
    State.elementwise_status .., State.elementwise_resets .., State.elementwise_host ..,
    State.elementwise_reply ..⟩
  wf hr hs := State.elementwise_wf val hs hr

/-- The counter of UNSPEC occasions is outside PMEM. -/
theorem StoresIn.drawn {r : Range} {s t : State} (h : StoresIn r s t) : StoresIn r s t.drawn where
  frame := h.frame
  wf := h.wf

/-- A composite command stores its result to the range of the result's length (20_memory.md R49). -/
theorem storesIn_composite (s : State) (dst : Addr) {result : List Word} {n : Nat}
    (hlen : result.length = n) : StoresIn ⟨dst.toNat, n⟩ s (s.composite dst result) where
  frame := ⟨fun a ha => by rw [State.readWord_composite, hlen, if_neg ha],
    State.composite_status .., State.composite_resets .., State.composite_host ..,
    State.composite_reply ..⟩
  wf hr hs := State.composite_wf hs (hlen ▸ hr)

/-- A composite command whose destination is UNSPEC throughout on some operands
(93_implementation_defined.md U2) has one destination range either way. -/
theorem storesIn_composite_ite (s : State) (dst : Addr) (p : Prop) [Decidable p]
    {result : List Word} {n : Nat} (hlen : result.length = n) :
    StoresIn ⟨dst.toNat, n⟩ s (s.composite dst (if p then result else s.unspecs n)) :=
  storesIn_composite s dst (by split <;> simp [hlen])

/-- A Karatsuba command stores twice its operands' length (43_karatsuba.md R145 to R149). -/
theorem storesIn_karatsuba (s : State) (v : Nat) (dst src1 src2 : Addr) :
    StoresIn ⟨dst.toNat, 2 * levelLen v⟩ s (s.karatsuba v dst src1 src2) :=
  storesIn_composite_ite s dst _
    (kmul_length v _ _ (State.memRead_length ..) (State.memRead_length ..))

/-! ### What a command does -/

/-- Every command is a guarded effect that stores to its destination range (30_encoding.md R60,
R66). -/
theorem exec_eq_guarded (i : Instr) (s : State) :
    ∃ e, exec i s = .next (s.guarded i e) ∧ StoresIn (dstRange i) s e := by
  cases i with
  | frz dst src1 => exact ⟨_, rfl, (storesIn_elementwise ..).drawn⟩
  | vfrz dst len => exact ⟨_, rfl, (storesIn_elementwise ..).drawn⟩
  | vzero dst len => exact ⟨_, rfl, storesIn_elementwise ..⟩
  | vcopy dst src1 len => exact ⟨_, rfl, storesIn_elementwise ..⟩
  | vadd dst src1 src2 len => exact ⟨_, rfl, (storesIn_elementwise ..).drawn⟩
  | vacc dst src1 len => exact ⟨_, rfl, storesIn_elementwise ..⟩
  | vsmul dst src1 imm len => exact ⟨_, rfl, (storesIn_elementwise ..).drawn⟩
  | conv4 dst src1 src2 => exact ⟨_, rfl, storesIn_composite s dst (conv4_length ..)⟩
  | kmul8 dst src1 src2 => exact ⟨_, rfl, storesIn_karatsuba s 1 dst src1 src2⟩
  | kmul16 dst src1 src2 => exact ⟨_, rfl, storesIn_karatsuba s 2 dst src1 src2⟩
  | kmul32 dst src1 src2 => exact ⟨_, rfl, storesIn_karatsuba s 3 dst src1 src2⟩
  | kmul64 dst src1 src2 => exact ⟨_, rfl, storesIn_karatsuba s 4 dst src1 src2⟩
  | kmul128 dst src1 src2 => exact ⟨_, rfl, storesIn_karatsuba s 5 dst src1 src2⟩
  | t6eval dst src1 src2 =>
    exact ⟨_, rfl, storesIn_composite_ite s dst _
      (t6eval_length (State.memRead_length ..) (State.memRead_length ..))⟩
  | t6interp dst src1 => exact ⟨_, rfl, storesIn_composite s dst (t6interp_length ..)⟩
  | t6recon dst src1 => exact ⟨_, rfl, storesIn_composite s dst (t6recon_length ..)⟩
  | mul768 dst src1 src2 =>
    exact ⟨_, rfl, storesIn_composite_ite s dst _ (mul768_length ..)⟩

/-- A command passes the range check and stores to its destination range, or fails it and raises
`BAD_RANGE` (30_encoding.md R60, R72). -/
theorem exec_cases {i : Instr} {s t : State} (h : exec i s = .next t) :
    (i.WellFormed ∧ StoresIn (dstRange i) s t) ∨ (¬ i.WellFormed ∧ t = s.raise .badRange) := by
  obtain ⟨e, he, hstores⟩ := exec_eq_guarded i s
  have ht : t = s.guarded i e := by simpa [he] using h.symm
  obtain ⟨hok, heq⟩ | ⟨hbad, heq⟩ := State.guarded_cases s i e
  · exact .inl ⟨hok, (ht.trans heq) ▸ hstores⟩
  · exact .inr ⟨by simp [hbad], ht.trans heq⟩

/-- An issued word decodes to a command whose ranges are legal, which stores to its destination
range; or it raises a command error (30_encoding.md R60). -/
theorem issue_cases {cmd : Command} {s t : State} (h : issue cmd s = .next t) :
    (∃ i, decode cmd = .ok i ∧ i.WellFormed ∧ StoresIn (dstRange i) s t) ∨
      ∃ e, t = s.raise e := by
  unfold issue at h
  split at h
  · rename_i i hdec
    obtain ⟨hok, hstores⟩ | ⟨-, ht⟩ := exec_cases h
    · exact .inl ⟨i, hdec, hok, hstores⟩
    · exact .inr ⟨_, ht⟩
  · rename_i e _
    exact .inr ⟨e, by simpa using h.symm⟩

/-! ### Legal `STATUS` words -/

/-- A packed word is legal when its code is 0 to 3, and 0 exactly without an error
(10_state.md R22). -/
theorem statusLegal_packStatus (err : Bool) (c : BitVec 3) :
    StatusLegal (packStatus err c) ↔ c.toNat ≤ 3 ∧ (c = 0 ↔ err = false) := by
  simp [StatusLegal]

theorem statusLegal_zero : StatusLegal 0 := by decide

theorem codeOf_legal (e : CmdError) : (codeOf e).toNat ≤ 3 ∧ codeOf e ≠ 0 := by
  cases e <;> decide

/-- Error entry from a legal word gives a legal word: the code kept is one that came with `ERR` set,
the code taken is one of the three (60_exceptions.md R211, R213). -/
theorem statusLegal_raise {s : State} (h : StatusLegal s.status) (e : CmdError) :
    StatusLegal (s.raise e).status := by
  obtain ⟨-, hle, hiff⟩ := h
  rw [State.raise_status, statusLegal_packStatus]
  cases herr : errOf s.status with
  | false =>
    obtain ⟨hcode, hne⟩ := codeOf_legal e
    exact ⟨hcode, iff_of_false hne (by simp)⟩
  | true => exact ⟨hle, by simpa [herr] using hiff⟩

/-! ### Legal states -/

theorem Inv.raise {s : State} (h : Inv s) (e : CmdError) : Inv (s.raise e) :=
  h.imp_right fun hstatus => statusLegal_raise hstatus e

/-- An effect that stores to a range inside PMEM keeps the state legal. -/
theorem Inv.storesIn {r : Range} {s t : State} (h : Inv s) (ht : StoresIn r s t)
    (hr : r.base + r.size ≤ Config.pmemWords) : Inv t :=
  h.imp (ht.wf hr) fun hstatus => ht.status_eq ▸ hstatus

/-- `issue` keeps the state legal, whether the word runs or is refused. -/
theorem issue_keeps_inv {cmd : Command} {s t : State} (h : Inv s) (ht : issue cmd s = .next t) :
    Inv t := by
  obtain ⟨i, -, hok, hstores⟩ | ⟨e, rfl⟩ := issue_cases ht
  · exact h.storesIn hstores (dstRange_le_of_rangesOk hok)
  · exact h.raise e

/-- Every transaction keeps the state legal. A written address is a 13-bit one, so it lies inside
PMEM (10_state.md R23). -/
theorem perform_keeps_inv {x : Transaction} {s t : State} (h : Inv s)
    (ht : perform x s = .next t) : Inv t := by
  cases x with
  | issue cmd => exact issue_keeps_inv h ht
  | reset =>
    cases ht
    exact ⟨wf_nil, statusLegal_zero⟩
  | pmemWrite a v =>
    cases ht
    exact h.imp_left fun hwf => putCell_wf v hwf a.isLt
  | pmemRead a =>
    cases ht
    exact h
  | statusRead =>
    cases ht
    exact h
  | statusClear =>
    cases ht
    exact h.imp_right fun _ => statusLegal_zero

/-- Settles O18: a step is idle or performs a transaction, and each keeps the state legal. -/
theorem stepKeepsStateLegal : Obligations.StepKeepsStateLegal := by
  intro s t hs ht
  cases hhost : s.host with
  | nil =>
    rw [step_idle hhost] at ht
    cases ht
    exact hs
  | cons x rest =>
    rw [step_perform hhost] at ht
    exact perform_keeps_inv (s := s.begin rest) hs ht

/-! ### Reading `STATUS` -/

/-- The step of `status_read()`: the word read is returned and the transaction is no longer pending
(10_state.md R22, R24). -/
theorem step_statusRead {s : State} {rest : List Transaction}
    (h : s.host = .statusRead :: rest) :
    step s = .next ((s.begin rest).replied (statusWord s)) := step_perform h

theorem statusWord_toNat (s : State) :
    (statusWord s).toNat = (if errOf s.status then 1 else 0) + 2 * (ecodeOf s.status).toNat :=
  packStatus_toNat ..

/-- Settles O11: the word returned is packed from the fields, as a legal `STATUS` word is. -/
theorem statusReadReturnsFields : Obligations.StatusReadReturnsFields := by
  intro s rest hhost
  refine ⟨_, statusWord s, step_statusRead hhost, State.replied_reply .., statusWord_toNat s,
    ?_, fun _ => by simp, by simp, by simp⟩
  rintro ⟨hpacked, -⟩
  exact hpacked.symm

/-! ### The state after reset, and idle steps -/

/-- Settles O14: the fields are those of the word 0. -/
theorem resetStateStatusZero : Obligations.ResetStateStatusZero :=
  ⟨State.reset_status, rfl, rfl, rfl, State.reset_pmem⟩

/-- Settles O15: with nothing pending a step is idle. -/
theorem idleChangesNothing : Obligations.IdleChangesNothing := fun _ => step_idle

/-- Settles O17: no word is listed, and the `STATUS` word is 0. -/
theorem resetStateIsLegal : Obligations.ResetStateIsLegal := ⟨State.reset_wf, statusLegal_zero⟩

/-! ### The constant tables -/

/-- Row `e` of `EVT` for a finite point holds the point's powers (10_state.md R26). -/
theorem evt_finite : ∀ e < 10, ∀ b < 6, evt e b = finitePoint e ^ b := by decide

/-- The row of `EVT` for infinity takes block 5 alone (10_state.md R26). -/
theorem evt_infinity : ∀ b < 6, evt 10 b = if b = 5 then 1 else 0 := by decide

/-- Settles O44, the finite points and infinity apart. -/
theorem evaluationTableIsPowers : Obligations.EvaluationTableIsPowers :=
  ⟨evt_finite, evt_infinity⟩

/-- The entries of the stored rows of `IMX` are canonical (10_state.md R27). -/
theorem imx_range : ∀ k < 10, 0 < k → ∀ e < 11, 0 ≤ imx k e ∧ imx k e < 9829 := by decide

/-- With the two unit rows every entry is still canonical (10_state.md R27). -/
theorem fullImx_range {k e : Nat} (hk : k < 11) (he : e < 11) :
    0 ≤ fullImx k e ∧ fullImx k e < 9829 := by
  unfold fullImx
  split
  · split <;> decide
  · split
    · split <;> decide
    · exact imx_range k (by omega) (by omega) e he

/-- The rows of the evaluation matrix for finite points against the columns of `IMX`: computed
entry by entry (10_state.md R27). -/
theorem evalMatrix_finite_mul_fullImx : ∀ e < 10, ∀ c < 11,
    (∑ k ∈ Finset.range 11, evalMatrix e k * fullImx k c) % 9829 = if e = c then 1 else 0 := by
  decide +kernel

/-- The row of infinity picks the unit row of `IMX` for infinity (10_state.md R27). -/
theorem evalMatrix_infinity_mul_fullImx (c : Nat) :
    ∑ k ∈ Finset.range 11, evalMatrix 10 k * fullImx k c = if 10 = c then 1 else 0 := by
  calc ∑ k ∈ Finset.range 11, evalMatrix 10 k * fullImx k c
      = ∑ k ∈ Finset.range 11, if k = 10 then fullImx k c else 0 := by simp [evalMatrix]
    _ = fullImx 10 c := by simp
    _ = if 10 = c then 1 else 0 := by simp [fullImx, eq_comm]

/-- Settles O47: the finite rows of the evaluation matrix, then the row of infinity. -/
theorem interpolationMatrixInverts : Obligations.InterpolationMatrixInverts := by
  refine ⟨fun e he c hc => ?_, fun k hk e he => fullImx_range hk he⟩
  by_cases hfin : e < 10
  · exact evalMatrix_finite_mul_fullImx e hfin c hc
  · obtain rfl : e = 10 := by omega
    rw [evalMatrix_infinity_mul_fullImx]
    split <;> rfl

end Sys2Proof

/-! Operand memory (20_memory.md): the host's two PMEM transactions, the words an elementwise command
sees (R47, R48), the frame of every command, and that what a command stores depends on the ranges it
reads alone (R46, R49). -/

namespace Sys2Proof

open Sys2Proof.Machine

/-! ### The host's PMEM transactions -/

/-- The step of `pmem_write(a, v)` (20_memory.md R40). -/
theorem step_pmemWrite {s : State} {a : Addr} {v : Word} {rest : List Transaction}
    (h : s.host = .pmemWrite a v :: rest) :
    step s = .next ((s.begin rest).writeWord a.toNat v) := step_perform h

/-- The step of `pmem_read(a)` (20_memory.md R41). -/
theorem step_pmemRead {s : State} {a : Addr} {rest : List Transaction}
    (h : s.host = .pmemRead a :: rest) :
    step s = .next ((s.begin rest).replied (s.readWord a.toNat)) := step_perform h

/-- Settles O9, from what is read after a write at the same and at another address. -/
theorem pmemWriteStoresOneWord : Obligations.PmemWriteStoresOneWord := by
  intro s a v rest hhost
  refine ⟨_, step_pmemWrite hhost, ?_, fun b hb => ?_, rfl, rfl, rfl, rfl⟩
  · rw [State.readWord_writeWord, if_pos rfl]
  · rw [State.readWord_writeWord, if_neg hb, State.readWord_begin]

/-- Settles O10: only the reply and the pending transactions change. -/
theorem pmemReadReturnsTheWord : Obligations.PmemReadReturnsTheWord := by
  intro s a rest hhost
  exact ⟨_, step_pmemRead hhost, State.replied_reply .., fun b => by simp, by simp, by simp,
    by simp, by simp⟩

/-! ### The frame of every command -/

/-- Settles O54: a command whose ranges pass stores to its destination range, any other raises
`BAD_RANGE`, which leaves PMEM alone. -/
theorem commandsStoreOnlyToDst : Obligations.CommandsStoreOnlyToDst := by
  intro i s
  obtain ⟨e, hexec, -⟩ := exec_eq_guarded i s
  refine ⟨_, hexec, ?_⟩
  obtain ⟨hok, hstores⟩ | ⟨hbad, hraise⟩ := exec_cases hexec
  · obtain ⟨hwords, hstatus, hresets, hhost, hreply⟩ := hstores.frame
    exact ⟨hwords, hresets, hhost, hreply, fun _ => hstatus, fun h => absurd hok h⟩
  · rw [hraise]
    exact ⟨fun _ _ => State.readWord_raise .., State.raise_resets .., State.raise_host ..,
      State.raise_reply .., fun h => absurd h hbad, fun _ _ => State.readWord_raise ..⟩

/-! ### The words an elementwise command sees (20_memory.md R47) -/

/-- While element `i` is processed, memory holds the words `seenAt` names. -/
theorem readWord_elementwise_eq_seenAt (s : State) (dst n : Nat) (val : Nat → State → Word)
    {i : Nat} (hi : i < n) (a : Nat) :
    (s.elementwise dst i val).readWord a = seenAt s (s.elementwise dst n val) dst i a :=
  State.readWord_elementwise_partial s dst n val hi.le a

/-- When the destination starts at a source or below it, or at or above its end, no source element
is overwritten before it is read (20_memory.md R48 (a), (b)). -/
theorem seenAt_of_safe (s t : State) {dst src n i : Nat} (hi : i < n)
    (hsafe : dst ≤ src ∨ src + n ≤ dst) : seenAt s t dst i (src + i) = s.readWord (src + i) :=
  if_neg (by omega)

/-- Inside its domain `reduce` is the residue (40_reduction.md R90). -/
theorem reduce_toInt (free : Word) {x : Int} (h : InDomain x) :
    (reduce free x).toInt = x % 9829 := by
  rw [reduce, if_pos h, residue_toInt]

/-- The range check of a command with one source of its destination's length, as `VCOPY`
(30_encoding.md R72). -/
theorem wellFormed_vcopy {dst src1 : Addr} {len : Len} :
    (Instr.vcopy dst src1 len).WellFormed ↔ len.toNat ≠ 0 ∧
      dst.toNat + len.toNat ≤ 8192 ∧ src1.toNat + len.toNat ≤ 8192 := by
  simp [Instr.WellFormed, rangesOk, lenOk, dstRange, srcRanges, ← BitVec.toNat_inj]

theorem wellFormed_vacc {dst src1 : Addr} {len : Len} :
    (Instr.vacc dst src1 len).WellFormed ↔ len.toNat ≠ 0 ∧
      dst.toNat + len.toNat ≤ 8192 ∧ src1.toNat + len.toNat ≤ 8192 := wellFormed_vcopy

theorem wellFormed_vsmul {dst src1 : Addr} {imm : Imm} {len : Len} :
    (Instr.vsmul dst src1 imm len).WellFormed ↔ len.toNat ≠ 0 ∧
      dst.toNat + len.toNat ≤ 8192 ∧ src1.toNat + len.toNat ≤ 8192 := wellFormed_vcopy

theorem wellFormed_vadd {dst src1 src2 : Addr} {len : Len} :
    (Instr.vadd dst src1 src2 len).WellFormed ↔ len.toNat ≠ 0 ∧
      dst.toNat + len.toNat ≤ 8192 ∧ src1.toNat + len.toNat ≤ 8192 ∧
      src2.toNat + len.toNat ≤ 8192 := by
  simp [Instr.WellFormed, rangesOk, lenOk, dstRange, srcRanges, ← BitVec.toNat_inj]

/-- `VCOPY` stores the words it sees (41_primitives.md R112). -/
theorem exec_vcopy_seenAt {dst src1 : Addr} {len : Len}
    (h : (Instr.vcopy dst src1 len).WellFormed) (s : State) :
    ∃ t, exec (.vcopy dst src1 len) s = .next t ∧ ∀ i < len.toNat,
      t.readWord (dst.toNat + i) = seenAt s t dst.toNat i (src1.toNat + i) := by
  refine ⟨_, congrArg Host.Outcome.next (State.guarded_ok h _), fun i hi => ?_⟩
  rw [State.readWord_elementwise_inside _ _ _ _ hi, readWord_elementwise_eq_seenAt _ _ _ _ hi]

/-- `VADD` stores the reduced sums of the words it sees (41_primitives.md R113). -/
theorem exec_vadd_seenAt {dst src1 src2 : Addr} {len : Len}
    (h : (Instr.vadd dst src1 src2 len).WellFormed) (s : State) :
    ∃ t, exec (.vadd dst src1 src2 len) s = .next t ∧ ∀ i < len.toNat,
      t.readWord (dst.toNat + i) = reduce (s.unspec i)
        ((seenAt s t dst.toNat i (src1.toNat + i)).toInt +
          (seenAt s t dst.toNat i (src2.toNat + i)).toInt) := by
  refine ⟨_, congrArg Host.Outcome.next (State.guarded_ok h _), fun i hi => ?_⟩
  rw [State.readWord_drawn, State.readWord_elementwise_inside _ _ _ _ hi,
    readWord_elementwise_eq_seenAt _ _ _ _ hi, readWord_elementwise_eq_seenAt _ _ _ _ hi]
  rfl

/-- `VACC` adds the word it sees to the word of its destination, which no earlier element has
touched (41_primitives.md R114). -/
theorem exec_vacc_seenAt {dst src1 : Addr} {len : Len}
    (h : (Instr.vacc dst src1 len).WellFormed) (s : State) :
    ∃ t, exec (.vacc dst src1 len) s = .next t ∧ ∀ i < len.toNat,
      t.readWord (dst.toNat + i) = wrap32 ((s.readWord (dst.toNat + i)).toInt +
        (seenAt s t dst.toNat i (src1.toNat + i)).toInt) := by
  refine ⟨_, congrArg Host.Outcome.next (State.guarded_ok h _), fun i hi => ?_⟩
  rw [State.readWord_elementwise_inside _ _ _ _ hi, readWord_elementwise_eq_seenAt _ _ _ _ hi,
    readWord_elementwise_eq_seenAt _ _ _ _ hi, seenAt_of_safe _ _ hi (.inl le_rfl), wrap32,
    BitVec.ofInt_add, BitVec.ofInt_toInt, BitVec.ofInt_toInt]

/-- `VSMUL` stores the reduced products of the words it sees (41_primitives.md R115). -/
theorem exec_vsmul_seenAt {dst src1 : Addr} {imm : Imm} {len : Len}
    (h : (Instr.vsmul dst src1 imm len).WellFormed) (s : State) :
    ∃ t, exec (.vsmul dst src1 imm len) s = .next t ∧ ∀ i < len.toNat,
      t.readWord (dst.toNat + i) = reduce (s.unspec i)
        (imm.toInt * (seenAt s t dst.toNat i (src1.toNat + i)).toInt) := by
  refine ⟨_, congrArg Host.Outcome.next (State.guarded_ok h _), fun i hi => ?_⟩
  rw [State.readWord_drawn, State.readWord_elementwise_inside _ _ _ _ hi,
    readWord_elementwise_eq_seenAt _ _ _ _ hi]
  rfl

/-- Settles O34: with a safe overlap the words seen are the original ones. -/
theorem safeOverlapUsesOriginalWords : Obligations.SafeOverlapUsesOriginalWords := by
  intro dst src1 src2 imm len s hlen hdst hsrc1 hsrc2 hsafe1 hsafe2
  have hseen1 : ∀ t, ∀ i < len.toNat, seenAt s t dst.toNat i (src1.toNat + i) =
      s.readWord (src1.toNat + i) := fun t i hi => seenAt_of_safe s t hi hsafe1
  have hseen2 : ∀ t, ∀ i < len.toNat, seenAt s t dst.toNat i (src2.toNat + i) =
      s.readWord (src2.toNat + i) := fun t i hi => seenAt_of_safe s t hi hsafe2
  refine ⟨?vcopy, ?vadd, ?vacc, ?vsmul⟩
  case vcopy =>
    obtain ⟨t, hexec, hword⟩ := exec_vcopy_seenAt (wellFormed_vcopy.mpr ⟨hlen, hdst, hsrc1⟩) s
    exact ⟨t, hexec, fun i hi => by rw [hword i hi, hseen1 t i hi]⟩
  case vadd =>
    obtain ⟨t, hexec, hword⟩ :=
      exec_vadd_seenAt (wellFormed_vadd.mpr ⟨hlen, hdst, hsrc1, hsrc2⟩) s
    exact ⟨t, hexec, fun i hi hdom => by
      rw [hword i hi, hseen1 t i hi, hseen2 t i hi, reduce_toInt _ hdom]⟩
  case vacc =>
    obtain ⟨t, hexec, hword⟩ := exec_vacc_seenAt (wellFormed_vacc.mpr ⟨hlen, hdst, hsrc1⟩) s
    exact ⟨t, hexec, fun i hi => by rw [hword i hi, hseen1 t i hi]⟩
  case vsmul =>
    obtain ⟨t, hexec, hword⟩ :=
      exec_vsmul_seenAt (imm := imm) (wellFormed_vsmul.mpr ⟨hlen, hdst, hsrc1⟩) s
    exact ⟨t, hexec, fun i hi hdom => by rw [hword i hi, hseen1 t i hi, reduce_toInt _ hdom]⟩

/-! ### What a command stores depends on the ranges it reads alone -/

/-- Two states hold the same words in every range of a list (20_memory.md R46). -/
def SameWords (rs : List Range) (s s' : State) : Prop :=
  ∀ r ∈ rs, ∀ a, inRange r a → s'.readWord a = s.readWord a

theorem SameWords.readWord {rs : List Range} {s s' : State} (h : SameWords rs s s') {b n i : Nat}
    (hr : ⟨b, n⟩ ∈ rs) (hi : i < n) : s'.readWord (b + i) = s.readWord (b + i) :=
  h _ hr _ ⟨Nat.le_add_right b i, Nat.add_lt_add_left hi b⟩

theorem SameWords.memRead {rs : List Range} {s s' : State} (h : SameWords rs s s') {b n : Nat}
    (hr : ⟨b, n⟩ ∈ rs) : s'.memRead b n = s.memRead b n :=
  State.memRead_congr fun _ hi => h.readWord hr hi

theorem SameWords.memRead_pair {a m b n : Nat} {s s' : State}
    (h : SameWords [⟨a, m⟩, ⟨b, n⟩] s s') :
    s'.memRead a m = s.memRead a m ∧ s'.memRead b n = s.memRead b n :=
  ⟨h.memRead List.mem_cons_self, h.memRead (List.mem_cons_of_mem _ List.mem_cons_self)⟩

/-- The counter of UNSPEC occasions is outside PMEM. -/
theorem SameWords.drawn {rs : List Range} {s s' : State} (h : SameWords rs s s') :
    SameWords rs s.drawn s'.drawn := h

/-- Free words are those of the occasion they are drawn at (log 5). -/
theorem unspec_congr {s s' : State} (h : s.draws = s'.draws) : s'.unspec = s.unspec :=
  funext fun _ => by rw [State.unspec, State.unspec, h]

theorem unspecs_congr {s s' : State} (h : s.draws = s'.draws) (n : Nat) :
    s'.unspecs n = s.unspecs n := by
  rw [State.unspecs, State.unspecs, unspec_congr h]

/-- Elements computed from the words of `rs` alone: two states with the same words there keep them
the same while they write the same words to the destination (20_memory.md R47). -/
theorem SameWords.elementwise {rs : List Range} {s s' : State} (h : SameWords rs s s') (dst n : Nat)
    {val val' : Nat → State → Word}
    (hval : ∀ i < n, ∀ u u', SameWords rs u u' → val' i u' = val i u) :
    SameWords (⟨dst, n⟩ :: rs) (s.elementwise dst n val) (s'.elementwise dst n val') := by
  induction n with
  | zero =>
    rintro r hr a ha
    obtain rfl | hr := List.mem_cons.mp hr
    · exact absurd ha (by simp)
    · exact h r hr a ha
  | succ n ih =>
    have hearlier := ih fun i hi => hval i (by omega)
    have hword := hval n (by omega) _ _ fun r hr => hearlier r (List.mem_cons_of_mem _ hr)
    rintro r hr a ha
    rw [State.elementwise_succ, State.elementwise_succ, State.readWord_writeWord,
      State.readWord_writeWord, hword]
    split
    · rfl
    · rename_i hne
      obtain rfl | hr := List.mem_cons.mp hr
      · obtain ⟨hlo, hhi⟩ : dst ≤ a ∧ a < dst + (n + 1) := ha
        exact hearlier _ List.mem_cons_self a ⟨hlo, show a < dst + n by omega⟩
      · exact hearlier r (List.mem_cons_of_mem _ hr) a ha

/-- The part of `SameWords.elementwise` about the destination. -/
theorem SameWords.elementwise_dst {rs : List Range} {s s' : State} (h : SameWords rs s s')
    (dst n : Nat) {val val' : Nat → State → Word}
    (hval : ∀ i < n, ∀ u u', SameWords rs u u' → val' i u' = val i u) :
    SameWords [⟨dst, n⟩] (s.elementwise dst n val) (s'.elementwise dst n val') :=
  fun _ hr => h.elementwise dst n hval _ (List.mem_singleton.mp hr ▸ List.mem_cons_self)

/-- Two results of the same words are the same words in two destinations (20_memory.md R49). -/
theorem sameWords_composite (s s' : State) (dst : Addr) {result result' : List Word} {n : Nat}
    (heq : result' = result) (hlen : result.length = n) :
    SameWords [⟨dst.toNat, n⟩] (s.composite dst result) (s'.composite dst result') := by
  subst heq hlen
  intro r hr a ha
  obtain rfl := List.mem_singleton.mp hr
  rw [State.readWord_composite, State.readWord_composite, if_pos ha, if_pos ha]

/-- A composite command that is UNSPEC throughout on some operands (93_implementation_defined.md
U2) draws the same free words at the same occasion. -/
theorem sameWords_composite_ite {s s' : State} (hdraws : s.draws = s'.draws) (dst : Addr)
    {p p' : Prop} [Decidable p] [Decidable p'] {result result' : List Word} {n : Nat}
    (hp : p' ↔ p) (heq : result' = result) (hlen : result.length = n) :
    SameWords [⟨dst.toNat, n⟩] (s.composite dst (if p then result else s.unspecs n))
      (s'.composite dst (if p' then result' else s'.unspecs n)) :=
  sameWords_composite s s' dst (by simp only [hp, heq, unspecs_congr hdraws])
    (by split <;> simp [hlen])

/-- The Karatsuba commands read their two operands (43_karatsuba.md R145 to R149). -/
theorem sameWords_karatsuba {s s' : State} (hdraws : s.draws = s'.draws) (v : Nat)
    (dst src1 src2 : Addr)
    (h : SameWords [⟨src1.toNat, levelLen v⟩, ⟨src2.toNat, levelLen v⟩] s s') :
    SameWords [⟨dst.toNat, 2 * levelLen v⟩] (s.karatsuba v dst src1 src2)
      (s'.karatsuba v dst src1 src2) := by
  obtain ⟨hf, hg⟩ := h.memRead_pair
  exact sameWords_composite_ite hdraws dst (by rw [hf, hg]) (by rw [hf, hg])
    (kmul_length v _ _ (State.memRead_length ..) (State.memRead_length ..))

/-- The effects of one command from two states that hold the same words in the ranges it reads, at
one occasion of UNSPEC results, leave the same words in its destination range. -/
theorem exec_sameWords (i : Instr) {s s' : State} (hdraws : s.draws = s'.draws)
    (h : SameWords (readRanges i) s s') :
    ∃ e e', exec i s = .next (s.guarded i e) ∧ exec i s' = .next (s'.guarded i e') ∧
      SameWords [dstRange i] e e' := by
  have hfree := unspec_congr hdraws
  cases i with
  | frz dst src1 =>
    refine ⟨_, _, rfl, rfl, (h.elementwise_dst dst.toNat 1 fun i hi u u' hu => ?_).drawn⟩
    rw [hfree, hu.readWord List.mem_cons_self hi]
  | vfrz dst len =>
    refine ⟨_, _, rfl, rfl, (h.elementwise_dst dst.toNat len.toNat fun i hi u u' hu => ?_).drawn⟩
    rw [hfree, hu.readWord List.mem_cons_self hi]
  | vzero dst len =>
    exact ⟨_, _, rfl, rfl, h.elementwise_dst dst.toNat len.toNat fun _ _ _ _ _ => rfl⟩
  | vcopy dst src1 len =>
    refine ⟨_, _, rfl, rfl, h.elementwise_dst dst.toNat len.toNat fun i hi u u' hu => ?_⟩
    rw [hu.readWord List.mem_cons_self hi]
  | vadd dst src1 src2 len =>
    refine ⟨_, _, rfl, rfl, (h.elementwise_dst dst.toNat len.toNat fun i hi u u' hu => ?_).drawn⟩
    rw [hfree, hu.readWord List.mem_cons_self hi,
      hu.readWord (List.mem_cons_of_mem _ List.mem_cons_self) hi]
  | vacc dst src1 len =>
    refine ⟨_, _, rfl, rfl, h.elementwise_dst dst.toNat len.toNat fun i hi u u' hu => ?_⟩
    rw [hu.readWord List.mem_cons_self hi,
      hu.readWord (List.mem_cons_of_mem _ List.mem_cons_self) hi]
  | vsmul dst src1 imm len =>
    refine ⟨_, _, rfl, rfl, (h.elementwise_dst dst.toNat len.toNat fun i hi u u' hu => ?_).drawn⟩
    rw [hfree, hu.readWord List.mem_cons_self hi]
  | conv4 dst src1 src2 =>
    obtain ⟨hf, hg⟩ := SameWords.memRead_pair h
    exact ⟨_, _, rfl, rfl,
      sameWords_composite s s' dst (by rw [hf, hg, hfree]) (conv4_length ..)⟩
  | kmul8 dst src1 src2 => exact ⟨_, _, rfl, rfl, sameWords_karatsuba hdraws 1 dst src1 src2 h⟩
  | kmul16 dst src1 src2 => exact ⟨_, _, rfl, rfl, sameWords_karatsuba hdraws 2 dst src1 src2 h⟩
  | kmul32 dst src1 src2 => exact ⟨_, _, rfl, rfl, sameWords_karatsuba hdraws 3 dst src1 src2 h⟩
  | kmul64 dst src1 src2 => exact ⟨_, _, rfl, rfl, sameWords_karatsuba hdraws 4 dst src1 src2 h⟩
  | kmul128 dst src1 src2 => exact ⟨_, _, rfl, rfl, sameWords_karatsuba hdraws 5 dst src1 src2 h⟩
  | t6eval dst src1 src2 =>
    obtain ⟨hf, hg⟩ := SameWords.memRead_pair h
    exact ⟨_, _, rfl, rfl,
      sameWords_composite_ite hdraws dst (by rw [hf, hg]) (by rw [hf, hg])
        (t6eval_length (State.memRead_length ..) (State.memRead_length ..))⟩
  | t6interp dst src1 =>
    have hblocks := h.memRead (b := src1.toNat) (n := 2816) List.mem_cons_self
    exact ⟨_, _, rfl, rfl,
      sameWords_composite s s' dst (by rw [hblocks, hfree]) (t6interp_length ..)⟩
  | t6recon dst src1 =>
    have hblocks := h.memRead (b := src1.toNat) (n := 2816) List.mem_cons_self
    exact ⟨_, _, rfl, rfl,
      sameWords_composite s s' dst (by rw [hblocks, hfree]) (t6recon_length ..)⟩
  | mul768 dst src1 src2 =>
    obtain ⟨hf, hg⟩ := SameWords.memRead_pair h
    exact ⟨_, _, rfl, rfl,
      sameWords_composite_ite hdraws dst (by rw [hf, hg]) (by rw [hf, hg, hfree])
        (mul768_length ..)⟩

/-- Settles O55: both states run the command's effect, which agrees on the destination. -/
theorem resultDependsOnSourcesOnly : Obligations.ResultDependsOnSourcesOnly := by
  intro i s s' hok hdraws hwords
  obtain ⟨e, e', hexec, hexec', hsame⟩ := exec_sameWords i hdraws hwords
  rw [State.guarded_ok hok] at hexec hexec'
  exact ⟨e, e', hexec, hexec', hsame _ List.mem_cons_self⟩

end Sys2Proof

/-! The encoding of commands (30_encoding.md): a word is its five fields (R61), what the mask of each
format asks of them (R63), the decoder and the encoder as each other's inverse, and the words that
are refused (R71 to R74). -/

namespace Sys2Proof

open Sys2Proof.Machine

/-! ### A word is its fields (30_encoding.md R61) -/

/-- Every bit of a word lies in one of the five fields. -/
theorem command_ext_iff {x y : Command} :
    x = y ↔ opField x = opField y ∧ dstField x = dstField y ∧ src1Field x = src1Field y ∧
      immField x = immField y ∧ lenField x = lenField y := by
  refine ⟨fun h => by simp [h], ?_⟩
  rintro ⟨hop, hdst, hsrc1, himm, hlen⟩
  refine BitVec.eq_of_getLsbD_eq fun k hk => ?_
  obtain hhi | ⟨hlo, hhi⟩ | ⟨hlo, hhi⟩ | ⟨hlo, hhi⟩ | hlo :
      k < 14 ∨ (14 ≤ k ∧ k < 30) ∨ (30 ≤ k ∧ k < 43) ∨ (43 ≤ k ∧ k < 56) ∨ 56 ≤ k := by omega
  · rw [bit_lenField x hhi, bit_lenField y hhi, hlen]
  · rw [bit_immField x hlo hhi, bit_immField y hlo hhi, himm]
  · rw [bit_src1Field x hlo hhi, bit_src1Field y hlo hhi, hsrc1]
  · rw [bit_dstField x hlo hhi, bit_dstField y hlo hhi, hdst]
  · rw [bit_opField x hlo hk, bit_opField y hlo hk, hop]

/-- A word with an opcode of the map is its fields joined. -/
theorem joinFields_fields {cmd : Command} {op : Op} (h : opField cmd = opcode op) :
    joinFields op (dstField cmd) (src1Field cmd) (immField cmd) (lenField cmd) = cmd := by
  simp [command_ext_iff, opField_joinFields, h]

/-- The opcode alone, as a word. -/
theorem opcode_shiftLeft (op : Op) : (opcode op).setWidth 64 <<< 56 = joinFields op 0 0 0 0 := by
  cases op <;> rfl

/-! ### The fields of a masked word -/

@[simp] theorem opField_and (x y : Command) : opField (x &&& y) = opField x &&& opField y :=
  BitVec.extractLsb'_and

@[simp] theorem dstField_and (x y : Command) : dstField (x &&& y) = dstField x &&& dstField y :=
  BitVec.extractLsb'_and

@[simp] theorem src1Field_and (x y : Command) :
    src1Field (x &&& y) = src1Field x &&& src1Field y := BitVec.extractLsb'_and

@[simp] theorem immField_and (x y : Command) : immField (x &&& y) = immField x &&& immField y :=
  BitVec.extractLsb'_and

@[simp] theorem lenField_and (x y : Command) : lenField (x &&& y) = lenField x &&& lenField y :=
  BitVec.extractLsb'_and

/-- A word without a 1 is one whose fields have none. -/
theorem command_eq_zero_iff (cmd : Command) :
    cmd = 0 ↔ opField cmd = 0 ∧ dstField cmd = 0 ∧ src1Field cmd = 0 ∧ immField cmd = 0 ∧
      lenField cmd = 0 := command_ext_iff

/-- Every format fixes all bits of the opcode and no bit of `dst` (30_encoding.md R63). -/
theorem opField_maskOf (f : Format) : opField (maskOf f) = BitVec.allOnes 8 := by
  cases f <;> rfl

theorem dstField_maskOf (f : Format) : dstField (maskOf f) = 0 := by cases f <;> rfl

/-- The reserved bits are the fixed bits outside the opcode (30_encoding.md R63). -/
theorem and_reservedMask_eq_zero_iff_fields (cmd : Command) (f : Format) :
    cmd &&& reservedMask f = 0 ↔ src1Field cmd &&& src1Field (maskOf f) = 0 ∧
      immField cmd &&& immField (maskOf f) = 0 ∧ lenField cmd &&& lenField (maskOf f) = 0 := by
  have hop : opField (reservedMask f) = 0 := by cases f <;> rfl
  have hdst : dstField (reservedMask f) = 0 := by cases f <;> rfl
  have hsrc1 : src1Field (reservedMask f) = src1Field (maskOf f) := by cases f <;> rfl
  have himm : immField (reservedMask f) = immField (maskOf f) := by cases f <;> rfl
  have hlen : lenField (reservedMask f) = lenField (maskOf f) := by cases f <;> rfl
  rw [command_eq_zero_iff]
  simp [hop, hdst, hsrc1, himm, hlen]

/-- A word agrees with an opcode under the mask of its format: it has the opcode, and no reserved
bit of it is 1 (30_encoding.md R63). -/
theorem and_maskOf_eq_iff (cmd : Command) (op : Op) :
    cmd &&& maskOf (formatOf op) = (opcode op).setWidth 64 <<< 56 ↔
      opField cmd = opcode op ∧ cmd &&& reservedMask (formatOf op) = 0 := by
  rw [opcode_shiftLeft, command_ext_iff, and_reservedMask_eq_zero_iff_fields, opField_and,
    opField_maskOf, BitVec.and_allOnes]
  simp [opField_joinFields, dstField_maskOf]

/-! ### The reserved bits of each format (30_encoding.md R63) -/

/-- What the reserved bits of a format ask of a word: a field the format does not use is zero, and
a second source address leaves `s2[15:13]` zero (30_encoding.md R61, R63). -/
def ReservedZero (cmd : Command) : Format → Prop
  | .S | .T => immField cmd = 0 ∧ lenField cmd = 0
  | .Z => src1Field cmd = 0 ∧ immField cmd = 0
  | .U => immField cmd = 0
  | .B => immField cmd = s2OfAddr (src2Field cmd)
  | .I => True
  | .M => immField cmd = s2OfAddr (src2Field cmd) ∧ lenField cmd = 0

/-- `src2` is `s2[12:0]` (30_encoding.md R61). -/
theorem getLsbD_src2Field (cmd : Command) {k : Nat} (hk : k < 13) :
    (src2Field cmd).getLsbD k = (immField cmd).getLsbD k := by
  have hbit := bit_src2Field cmd (k := k + 14) (by omega) (by omega)
  rwa [bit_immField cmd (by omega) (by omega), Nat.add_sub_cancel, eq_comm] at hbit

theorem getLsbD_s2OfAddr (a : Addr) (k : Nat) :
    (s2OfAddr a).getLsbD k = if k < 13 then a.getLsbD k else false := by
  unfold s2OfAddr
  rw [BitVec.getLsbD_append]
  simp

theorem getLsbD_s2Mask {k : Nat} (hk : k < 16) :
    (0xE000#16).getLsbD k = decide (13 ≤ k) := by
  revert k; decide

/-- `s2[15:13]` is zero exactly when `s2` holds nothing but `src2` (30_encoding.md R61). -/
theorem immField_and_eq_zero_iff (cmd : Command) :
    immField cmd &&& 0xE000 = 0 ↔ immField cmd = s2OfAddr (src2Field cmd) := by
  constructor
  · intro h
    refine BitVec.eq_of_getLsbD_eq fun k hk => ?_
    rw [getLsbD_s2OfAddr]
    split
    · rename_i hlow
      exact (getLsbD_src2Field cmd hlow).symm
    · have hbit := congrArg (BitVec.getLsbD · k) h
      simpa [getLsbD_s2Mask hk, show 13 ≤ k by omega] using hbit
  · intro h
    refine BitVec.eq_of_getLsbD_eq fun k hk => ?_
    rw [h, BitVec.getLsbD_and, getLsbD_s2OfAddr, BitVec.ofNat_eq_ofNat, getLsbD_s2Mask hk]
    by_cases hlow : k < 13
    · simp [show ¬ 13 ≤ k by omega]
    · simp [hlow]

/-- The masks say what `ReservedZero` says: each format's mask is written out over `src1`, `s2` and
`len` (30_encoding.md R63). -/
theorem and_reservedMask_eq_zero_iff (cmd : Command) (f : Format) :
    cmd &&& reservedMask f = 0 ↔ ReservedZero cmd f := by
  rw [and_reservedMask_eq_zero_iff_fields]
  cases f with
  | S | T =>
    change src1Field cmd &&& 0 = 0 ∧ immField cmd &&& BitVec.allOnes 16 = 0 ∧
      lenField cmd &&& BitVec.allOnes 14 = 0 ↔ immField cmd = 0 ∧ lenField cmd = 0
    simp only [BitVec.and_allOnes, BitVec.ofNat_eq_ofNat, BitVec.and_zero, true_and]
  | Z =>
    change src1Field cmd &&& BitVec.allOnes 13 = 0 ∧ immField cmd &&& BitVec.allOnes 16 = 0 ∧
      lenField cmd &&& 0 = 0 ↔ src1Field cmd = 0 ∧ immField cmd = 0
    simp only [BitVec.and_allOnes, BitVec.ofNat_eq_ofNat, BitVec.and_zero, and_true]
  | U =>
    change src1Field cmd &&& 0 = 0 ∧ immField cmd &&& BitVec.allOnes 16 = 0 ∧
      lenField cmd &&& 0 = 0 ↔ immField cmd = 0
    simp only [BitVec.and_allOnes, BitVec.ofNat_eq_ofNat, BitVec.and_zero, true_and, and_true]
  | B =>
    change src1Field cmd &&& 0 = 0 ∧ immField cmd &&& 0xE000 = 0 ∧ lenField cmd &&& 0 = 0 ↔
      immField cmd = s2OfAddr (src2Field cmd)
    rw [immField_and_eq_zero_iff]
    simp
  | I =>
    change src1Field cmd &&& 0 = 0 ∧ immField cmd &&& 0 = 0 ∧ lenField cmd &&& 0 = 0 ↔ True
    simp
  | M =>
    change src1Field cmd &&& 0 = 0 ∧ immField cmd &&& 0xE000 = 0 ∧
      lenField cmd &&& BitVec.allOnes 14 = 0 ↔
        immField cmd = s2OfAddr (src2Field cmd) ∧ lenField cmd = 0
    rw [immField_and_eq_zero_iff]
    simp only [BitVec.and_allOnes, BitVec.ofNat_eq_ofNat, BitVec.and_zero, true_and]

/-! ### The decoder -/

/-- What the decoder accepts: an opcode of the map, with no reserved bit of its format at 1; the
command takes its fields (30_encoding.md R60, R66, R73). -/
theorem decode_eq_ok_iff {cmd : Command} {i : Instr} :
    decode cmd = .ok i ↔
      ∃ op, opField cmd = opcode op ∧ cmd &&& reservedMask (formatOf op) = 0 ∧
        fieldsOf op cmd = i := by
  constructor
  · intro h
    unfold decode at h
    split at h
    · cases h
    · rename_i op hop
      split at h
      · rename_i hres
        exact ⟨op, (opOf_eq_some _ _).mp hop, hres, Except.ok.inj h⟩
      · cases h
  · rintro ⟨op, hop, hres, rfl⟩
    simp [decode, hop, hres]

/-- An opcode outside the map is refused before any other field is looked at
(30_encoding.md R71, R74). -/
theorem decode_illegalOpcode {cmd : Command} (h : opOf (opField cmd) = none) :
    decode cmd = .error .illegalOpcode := by
  simp [decode, h]

/-- An opcode of the map with a reserved bit at 1 is refused (30_encoding.md R73). -/
theorem decode_reservedField {cmd : Command} {op : Op} (hop : opField cmd = opcode op)
    (hres : cmd &&& reservedMask (formatOf op) ≠ 0) : decode cmd = .error .reservedField := by
  simp only [decode, hop, opOf_opcode, if_neg hres]

/-! ### Decoding and encoding are inverse -/

/-- Encoding the fields of a word joins them again, when the fields its format does not use are
zero (30_encoding.md R61, R63). -/
theorem encode_fieldsOf {cmd : Command} {op : Op} (h : ReservedZero cmd (formatOf op)) :
    encode (fieldsOf op cmd) =
      joinFields op (dstField cmd) (src1Field cmd) (immField cmd) (lenField cmd) := by
  cases op with
  | frz | t6interp | t6recon =>
    obtain ⟨himm, hlen⟩ := h
    rw [himm, hlen]
    rfl
  | vfrz | vzero =>
    obtain ⟨hsrc1, himm⟩ := h
    rw [hsrc1, himm]
    rfl
  | vcopy | vacc =>
    have himm : immField cmd = 0 := h
    rw [himm]
    rfl
  | vadd =>
    have himm : immField cmd = s2OfAddr (src2Field cmd) := h
    rw [himm]
    rfl
  | vsmul => rfl
  | conv4 | kmul8 | kmul16 | kmul32 | kmul64 | kmul128 | t6eval | mul768 =>
    obtain ⟨himm, hlen⟩ := h
    rw [himm, hlen]
    rfl

/-- The word of a command: its opcode, no reserved bit of its format at 1, and its fields
(30_encoding.md R61, R63, R66). -/
theorem encode_fields (i : Instr) :
    opField (encode i) = opcode (opIn i) ∧ ReservedZero (encode i) (formatOf (opIn i)) ∧
      fieldsOf (opIn i) (encode i) = i := by
  cases i with
  | frz | t6interp | t6recon =>
    refine ⟨opField_joinFields .., ⟨immField_joinFields .., lenField_joinFields ..⟩, ?_⟩
    simp [encode, fieldsOf, opIn]
  | vfrz | vzero =>
    refine ⟨opField_joinFields .., ⟨src1Field_joinFields .., immField_joinFields ..⟩, ?_⟩
    simp [encode, fieldsOf, opIn]
  | vcopy | vacc =>
    refine ⟨opField_joinFields .., immField_joinFields .., ?_⟩
    simp [encode, fieldsOf, opIn]
  | vsmul =>
    refine ⟨opField_joinFields .., trivial, ?_⟩
    simp [encode, fieldsOf, opIn]
  | vadd =>
    refine ⟨opField_joinFields .., ?_, ?_⟩
    · simp [encode, ReservedZero, formatOf, opIn]
    · simp [encode, fieldsOf, opIn]
  | conv4 | kmul8 | kmul16 | kmul32 | kmul64 | kmul128 | t6eval | mul768 =>
    refine ⟨opField_joinFields .., ?_, ?_⟩
    · simp [encode, ReservedZero, formatOf, opIn]
    · simp [encode, fieldsOf, opIn]

/-- Settles O1: the word of a command has its opcode, no reserved bit and its fields, which is what
the decoder looks at. -/
theorem decodeInvertsEncode : Obligations.DecodeInvertsEncode := by
  intro i
  obtain ⟨hop, hres, hfields⟩ := encode_fields i
  exact decode_eq_ok_iff.mpr
    ⟨opIn i, hop, (and_reservedMask_eq_zero_iff _ _).mpr hres, hfields⟩

/-- Settles O2: a word that decodes has its reserved bits zero, so its fields joined again give back
every bit. -/
theorem encodeInvertsDecode : Obligations.EncodeInvertsDecode := by
  intro cmd i h
  obtain ⟨op, hop, hres, rfl⟩ := decode_eq_ok_iff.mp h
  rw [encode_fieldsOf ((and_reservedMask_eq_zero_iff _ _).mp hres), joinFields_fields hop]

/-! ### The words of a mnemonic -/

/-- The words that decode to a command of a mnemonic (30_encoding.md R63). -/
theorem decodes_to_op_iff (cmd : Command) (op : Op) :
    (∃ i, decode cmd = .ok i ∧ opIn i = op) ↔
      opField cmd = opcode op ∧ cmd &&& reservedMask (formatOf op) = 0 := by
  constructor
  · rintro ⟨i, hdec, rfl⟩
    obtain ⟨op, hop, hres, rfl⟩ := decode_eq_ok_iff.mp hdec
    rw [opIn_fieldsOf]
    exact ⟨hop, hres⟩
  · rintro ⟨hop, hres⟩
    exact ⟨fieldsOf op cmd, decode_eq_ok_iff.mpr ⟨op, hop, hres, rfl⟩, opIn_fieldsOf op cmd⟩

/-- Settles O3: the tables by value; decoding to the mnemonic and agreeing under the mask are both
the opcode with no reserved bit at 1. -/
theorem instanceExactlyUnderMask : Obligations.InstanceExactlyUnderMask := by
  refine ⟨by decide, by decide, fun cmd op => ?_⟩
  rw [decodes_to_op_iff, and_maskOf_eq_iff]

/-! ### Issued words -/

/-- A word that decodes runs the command it stands for (30_encoding.md R60). -/
theorem issue_of_decode_ok {cmd : Command} {i : Instr} (h : decode cmd = .ok i) (s : State) :
    issue cmd s = exec i s := by
  simp [issue, h]

/-- A word that does not decode raises its error (30_encoding.md R60). -/
theorem issue_of_decode_error {cmd : Command} {e : CmdError} (h : decode cmd = .error e)
    (s : State) : issue cmd s = .next (s.raise e) := by
  simp [issue, h]

/-- A command whose ranges fail raises `BAD_RANGE` (30_encoding.md R72). -/
theorem exec_badRange {i : Instr} (h : ¬ i.WellFormed) (s : State) :
    exec i s = .next (s.raise .badRange) := by
  obtain ⟨e, hexec, -⟩ := exec_eq_guarded i s
  rw [hexec, State.guarded_bad (Bool.eq_false_iff.mpr h)]

/-- A command whose ranges pass completes and leaves `STATUS` alone (30_encoding.md R60). -/
theorem exec_keeps_status {i : Instr} (h : i.WellFormed) (s : State) :
    ∃ t, exec i s = .next t ∧ t.status = s.status := by
  obtain ⟨e, hexec, hstores⟩ := exec_eq_guarded i s
  rw [State.guarded_ok h] at hexec
  exact ⟨e, hexec, hstores.status_eq⟩

/-- Settles O8: a step performs the transaction, which is `issue` of the word. -/
theorem stepRunsDecodedCommand : Obligations.StepRunsDecodedCommand := by
  intro s cmd rest hhost
  have hstep : step s = issue cmd (s.begin rest) := step_perform hhost
  refine ⟨fun i hdec => ?_, fun i hdec hbad => ?_, fun e hdec => ?_⟩
  · exact hstep.trans (issue_of_decode_ok hdec _)
  · exact hstep.trans ((issue_of_decode_ok hdec _).trans (exec_badRange hbad _))
  · exact hstep.trans (issue_of_decode_error hdec _)

/-- The opcodes of the map are 01 to 11 (30_encoding.md R66). -/
theorem opcode_range (op : Op) : opcode op ≠ 0 ∧ (opcode op).toNat < 0x12 := by
  cases op <;> decide

/-- Settles O4: the opcode is none of the map's. -/
theorem illegalOpcodesRefused : Obligations.IllegalOpcodesRefused := by
  intro cmd s h
  have hnone : opOf (opField cmd) = none := by
    rw [Option.eq_none_iff_forall_ne_some]
    intro op hop
    obtain ⟨hne, hlt⟩ := opcode_range op
    rw [← (opOf_eq_some _ _).mp hop] at hne hlt
    exact h.elim hne (not_le.mpr hlt)
  exact issue_of_decode_error (decode_illegalOpcode hnone) s

/-- Settles O5: with the opcode in place, what disagrees under the mask is a reserved bit. -/
theorem reservedBitsRefused : Obligations.ReservedBitsRefused := by
  intro cmd op s hop hmask
  have hres : cmd &&& reservedMask (formatOf op) ≠ 0 :=
    fun hzero => hmask ((and_maskOf_eq_iff cmd op).mpr ⟨hop, hzero⟩)
  exact issue_of_decode_error (decode_reservedField hop hres) s

/-! ### The range check (30_encoding.md R72) -/

/-- What the range check refuses: `len` 0 where the format uses it, or an operand range that ends
above word 8191 (30_encoding.md R72). -/
theorem not_wellFormed_iff (i : Instr) :
    ¬ i.WellFormed ↔
      lenOk i = false ∨ ∃ r ∈ dstRange i :: srcRanges i, r.base + r.size > 8192 := by
  simp [Instr.WellFormed, rangesOk, imp_iff_not_or]

/-- A command is refused exactly when its range check fails (30_encoding.md R60, R72). -/
theorem refusedExactlyWhen_of_iff {i : Instr} {bad : Prop}
    (h : bad ↔ lenOk i = false ∨ ∃ r ∈ dstRange i :: srcRanges i, r.base + r.size > 8192) :
    RefusedExactlyWhen i bad := by
  rw [← not_wellFormed_iff] at h
  exact fun s => ⟨fun hbad => exec_badRange (h.mp hbad) s,
    fun hgood => exec_keeps_status (not_not.mp (mt h.mpr hgood)) s⟩

section
variable {i : Instr} {d a b : Addr} {n : Len} {k m : Nat}

/-- Format `Z`: one range of `len` words. -/
theorem refusedExactlyWhen_dst_len (hlen : lenOk i = decide (n ≠ 0))
    (hdst : dstRange i = ⟨d.toNat, n.toNat⟩) (hsrc : srcRanges i = []) :
    RefusedExactlyWhen i (n.toNat = 0 ∨ d.toNat + n.toNat > 8192) :=
  refusedExactlyWhen_of_iff (by simp [hlen, hdst, hsrc, BitVec.toNat_eq])

/-- Formats `U` and `I`: two ranges of `len` words. -/
theorem refusedExactlyWhen_dst_src1_len (hlen : lenOk i = decide (n ≠ 0))
    (hdst : dstRange i = ⟨d.toNat, n.toNat⟩) (hsrc : srcRanges i = [⟨a.toNat, n.toNat⟩]) :
    RefusedExactlyWhen i
      (n.toNat = 0 ∨ d.toNat + n.toNat > 8192 ∨ a.toNat + n.toNat > 8192) :=
  refusedExactlyWhen_of_iff (by simp [hlen, hdst, hsrc, BitVec.toNat_eq])

/-- Format `B`: three ranges of `len` words. -/
theorem refusedExactlyWhen_dst_src1_src2_len (hlen : lenOk i = decide (n ≠ 0))
    (hdst : dstRange i = ⟨d.toNat, n.toNat⟩)
    (hsrc : srcRanges i = [⟨a.toNat, n.toNat⟩, ⟨b.toNat, n.toNat⟩]) :
    RefusedExactlyWhen i (n.toNat = 0 ∨ d.toNat + n.toNat > 8192 ∨ a.toNat + n.toNat > 8192 ∨
      b.toNat + n.toNat > 8192) :=
  refusedExactlyWhen_of_iff (by simp [hlen, hdst, hsrc, BitVec.toNat_eq])

/-- Formats `S` and `T`: ranges of the sizes of the opcode map, one source. -/
theorem refusedExactlyWhen_dst_src1 (hlen : lenOk i = true) (hdst : dstRange i = ⟨d.toNat, m⟩)
    (hsrc : srcRanges i = [⟨a.toNat, k⟩]) :
    RefusedExactlyWhen i (d.toNat + m > 8192 ∨ a.toNat + k > 8192) :=
  refusedExactlyWhen_of_iff (by simp [hlen, hdst, hsrc])

/-- Format `M`: ranges of the sizes of the opcode map, two sources. -/
theorem refusedExactlyWhen_dst_src1_src2 (hlen : lenOk i = true)
    (hdst : dstRange i = ⟨d.toNat, m⟩) (hsrc : srcRanges i = [⟨a.toNat, k⟩, ⟨b.toNat, k⟩]) :
    RefusedExactlyWhen i (d.toNat + m > 8192 ∨ a.toNat + k > 8192 ∨ b.toNat + k > 8192) :=
  refusedExactlyWhen_of_iff (by simp [hlen, hdst, hsrc])

end

/-- `FRZ` never fails the range check: every address is one of a word (60_exceptions.md R211). -/
theorem frz_refusedExactlyWhen_false (d a : Addr) : RefusedExactlyWhen (.frz d a) False := by
  have hword (x : Addr) : ¬ x.toNat + 1 > 8192 := by omega
  simpa only [hword, or_self] using
    refusedExactlyWhen_dst_src1 (i := .frz d a) (d := d) (a := a) rfl rfl rfl

/-- Settles O6, by the format of each command. -/
theorem badRangeExactly : Obligations.BadRangeExactly := fun d a _ _ _ =>
  ⟨frz_refusedExactlyWhen_false d a,
    refusedExactlyWhen_dst_len (i := .vfrz ..) rfl rfl rfl,
    refusedExactlyWhen_dst_len (i := .vzero ..) rfl rfl rfl,
    refusedExactlyWhen_dst_src1_len (i := .vcopy ..) rfl rfl rfl,
    refusedExactlyWhen_dst_src1_src2_len (i := .vadd ..) rfl rfl rfl,
    refusedExactlyWhen_dst_src1_len (i := .vacc ..) rfl rfl rfl,
    refusedExactlyWhen_dst_src1_len (i := .vsmul ..) rfl rfl rfl,
    refusedExactlyWhen_dst_src1_src2 (i := .conv4 ..) rfl rfl rfl,
    refusedExactlyWhen_dst_src1_src2 (i := .kmul8 ..) rfl rfl rfl,
    refusedExactlyWhen_dst_src1_src2 (i := .kmul16 ..) rfl rfl rfl,
    refusedExactlyWhen_dst_src1_src2 (i := .kmul32 ..) rfl rfl rfl,
    refusedExactlyWhen_dst_src1_src2 (i := .kmul64 ..) rfl rfl rfl,
    refusedExactlyWhen_dst_src1_src2 (i := .kmul128 ..) rfl rfl rfl,
    refusedExactlyWhen_dst_src1_src2 (i := .t6eval ..) rfl rfl rfl,
    refusedExactlyWhen_dst_src1 (i := .t6interp ..) rfl rfl rfl,
    refusedExactlyWhen_dst_src1 (i := .t6recon ..) rfl rfl rfl,
    refusedExactlyWhen_dst_src1_src2 (i := .mul768 ..) rfl rfl rfl⟩

/-! ### Sample words and lines (30_encoding.md R76, R77) -/

/-- Settles O7: each word is decoded as it stands. -/
theorem sampleWordsDecode : Obligations.SampleWordsDecode := by
  unfold Obligations.SampleWordsDecode
  decide

/-- The pseudo-command and its `VSMUL` line are one command (30_encoding.md R77). -/
theorem assembleLine_vneg_eq_vsmul :
    assembleLine "VNEG 100, 100, 256".toList = assembleLine "VSMUL 100, 100, #-1, 256".toList := by
  decide

/-- Settles O56: each line of R76 is assembled as it stands, and the `VNEG` line is its `VSMUL`
line. -/
theorem assemblerExamples : Obligations.AssemblerExamples := by
  unfold Obligations.AssemblerExamples
  rw [assembleLine_vneg_eq_vsmul]
  decide

end Sys2Proof

/-! The reduction function (40_reduction.md): its contract and laws (R90, R98), that the reference
datapath never wraps and has its value (R91, R92), and the commands `FRZ` and `VFRZ` (R96, R97). -/

namespace Sys2Proof

open Sys2Proof.Machine

/-! ### The value of `reduce` (40_reduction.md R90) -/

/-- Inside the domain the free word does not matter. -/
theorem reduce_of_inDomain (free : Word) {x : Int} (h : InDomain x) : reduce free x = residue x :=
  if_pos h

theorem inDomain_of_canonical {y : Int} (h0 : 0 ≤ y) (hq : y < 9829) : InDomain y := by
  simp only [InDomain, Config.rbound_eq]
  omega

theorem reduce_canonical (free : Word) {x : Int} (h : InDomain x) :
    Canonical (reduce free x) := by
  rw [reduce_of_inDomain free h]
  exact residue_canonical x

/-- Two words of `reduce` are the same when their arguments are congruent. -/
theorem reduce_eq_of_emod_eq (u v : Word) {x y : Int} (hx : InDomain x) (hy : InDomain y)
    (h : x % 9829 = y % 9829) : reduce u x = reduce v y := by
  rw [← BitVec.toInt_inj, reduce_toInt u hx, reduce_toInt v hy, h]

/-- `reduce` is the identity on canonical integers (40_reduction.md R98). -/
theorem reduce_toInt_of_canonical (u : Word) {y : Int} (h0 : 0 ≤ y) (hq : y < 9829) :
    (reduce u y).toInt = y := by
  rw [reduce_toInt u (inDomain_of_canonical h0 hq), Int.emod_eq_of_lt h0 hq]

/-- Settles O23: the remainder is the one integer of [0, 9829) in its class. -/
theorem reduceMeetsContract : Obligations.ReduceMeetsContract := by
  intro free x hlo hhi
  have hdom : InDomain x := ⟨hlo, hhi⟩
  obtain ⟨h0, hq⟩ := reduce_canonical free hdom
  refine ⟨reduce_toInt free hdom, h0, hq, fun y hy0 hyq hcongr => ?_⟩
  calc y = y % 9829 := (Int.emod_eq_of_lt hy0 hyq).symm
    _ = x % 9829 := hcongr
    _ = (reduce free x).toInt := (reduce_toInt free hdom).symm

/-- Negation turns a residue into its complement, and 0 into 0 (40_reduction.md R98). -/
theorem neg_emod_eq (x : Int) : -x % 9829 = (9829 - x % 9829) % 9829 := by omega

/-- Settles O26: each law is a fact about remainders, through the value of `reduce`. -/
theorem reduceLaws : Obligations.ReduceLaws := by
  refine ⟨?idempotent, ?identity, ?periodic, ?negation, ?boundary⟩
  case idempotent =>
    intro u v x hx
    obtain ⟨h0, hq⟩ := reduce_canonical v hx
    have hdom := inDomain_of_canonical h0 hq
    refine ⟨h0, Int.lt_add_one_iff.mp hq, hdom, reduce_eq_of_emod_eq u v hdom hx ?_⟩
    rw [reduce_toInt v hx, Int.emod_emod]
  case identity => exact fun u y => reduce_toInt_of_canonical u
  case periodic =>
    exact fun u v x m hx hxm =>
      reduce_eq_of_emod_eq u v hxm hx (Int.add_mul_emod_self_left x 9829 m)
  case negation =>
    intro u v x hx
    have hneg : InDomain (-x) := ⟨neg_lt_neg hx.2, neg_lt.mp hx.1⟩
    rw [reduce_toInt u hneg, reduce_toInt v hx, neg_emod_eq]
  case boundary => exact fun u => ⟨reduce_toInt u (by decide), reduce_toInt u (by decide)⟩

/-! ### Word arithmetic that does not wrap (40_reduction.md R92) -/

/-- An integer a signed 32-bit word holds. -/
abbrev FitsWord (v : Int) : Prop := -2147483648 ≤ v ∧ v < 2147483648

theorem FitsWord.bmod_eq {v : Int} (h : FitsWord v) : v.bmod (2 ^ 32) = v :=
  Int.bmod_eq_of_le_mul_two (by omega) (by omega)

theorem toInt_add_of_fits {x y : Word} (h : FitsWord (x.toInt + y.toInt)) :
    (x + y).toInt = x.toInt + y.toInt := by
  rw [BitVec.toInt_add, h.bmod_eq]

theorem toInt_sub_of_fits {x y : Word} (h : FitsWord (x.toInt - y.toInt)) :
    (x - y).toInt = x.toInt - y.toInt := by
  rw [BitVec.toInt_sub, h.bmod_eq]

/-- A product with a constant of the datapath. -/
theorem toInt_const_mul_of_fits {c x : Word} {n : Int} (hc : c.toInt = n)
    (h : FitsWord (n * x.toInt)) : (c * x).toInt = n * x.toInt := by
  rw [BitVec.toInt_mul, hc, h.bmod_eq]

/-- `asr` divides, rounding down (00_scope.md R7). -/
theorem toInt_asr (x : Word) (k : Nat) : (x.sshiftRight k).toInt = x.toInt / 2 ^ k := by
  rw [BitVec.toInt_sshiftRight, Int.shiftRight_eq_div_pow]
  norm_cast

/-! ### The first estimate (40_reduction.md R91, R92) -/

/-- The estimate of `x / 9829` in the first step of the datapath. -/
def quotient1 (x : Word) : Word := (13 * x).sshiftRight 17

/-- The range the first step leaves (40_reduction.md R92). -/
abbrev InStep1Range (v : Int) : Prop := -4152713 ≤ v ∧ v ≤ 4162542

theorem datapathStep1_eq (x : Word) : datapathStep1 x = x - 9829 * quotient1 x := rfl

section
variable {x : Word} (h : InDomain x.toInt)
include h

theorem mul_13_range : -2147483637 ≤ 13 * x.toInt ∧ 13 * x.toInt ≤ 2147483637 := by
  simp only [InDomain, Config.rbound_eq] at h
  omega

theorem mul_13_toInt : (13 * x).toInt = 13 * x.toInt := by
  have hrange := mul_13_range h
  exact toInt_const_mul_of_fits rfl ⟨by omega, by omega⟩

theorem quotient1_toInt : (quotient1 x).toInt = 13 * x.toInt / 131072 := by
  rw [quotient1, toInt_asr, mul_13_toInt h]
  rfl

theorem quotient1_range : -16384 ≤ (quotient1 x).toInt ∧ (quotient1 x).toInt ≤ 16383 := by
  have hrange := mul_13_range h
  rw [quotient1_toInt h]
  omega

theorem quotient1_multiple_toInt :
    (9829 * quotient1 x).toInt = 9829 * (quotient1 x).toInt := by
  have hrange := quotient1_range h
  exact toInt_const_mul_of_fits rfl ⟨by omega, by omega⟩

/-- The remainder the first estimate leaves: `9829 * 13 / 2 ^ 17` falls short of 1 by about
2.5 percent. -/
theorem remainder1_range : InStep1Range (x.toInt - 9829 * (quotient1 x).toInt) := by
  have hrange := mul_13_range h
  rw [quotient1_toInt h]
  omega

theorem datapathStep1_toInt :
    (datapathStep1 x).toInt = x.toInt - 9829 * (quotient1 x).toInt := by
  have hrange := remainder1_range h
  have hmul := quotient1_multiple_toInt h
  rw [datapathStep1_eq, toInt_sub_of_fits (by rw [hmul]; omega), hmul]

theorem datapathStep1_range : InStep1Range (datapathStep1 x).toInt := by
  rw [datapathStep1_toInt h]
  exact remainder1_range h

end

/-! ### The second estimate (40_reduction.md R91, R92) -/

/-- The rounded estimate of `x1 / 9829` in the second step of the datapath. -/
def quotient2 (x1 : Word) : Word := (427 * x1 + 2097152).sshiftRight 22

/-- The range the second step leaves (40_reduction.md R92). -/
abbrev InStep2Range (v : Int) : Prop := -7571 ≤ v ∧ v ≤ 7565

theorem datapathStep2_eq (x1 : Word) : datapathStep2 x1 = x1 - 9829 * quotient2 x1 := rfl

section
variable {x1 : Word} (h : InStep1Range x1.toInt)
include h

theorem mul_427_toInt : (427 * x1).toInt = 427 * x1.toInt :=
  toInt_const_mul_of_fits rfl ⟨by omega, by omega⟩

theorem rounded_toInt : (427 * x1 + 2097152).toInt = 427 * x1.toInt + 2097152 := by
  have hmul := mul_427_toInt h
  have hround : (2097152 : Word).toInt = 2097152 := rfl
  rw [toInt_add_of_fits (by rw [hmul, hround]; omega), hmul, hround]

theorem quotient2_toInt :
    (quotient2 x1).toInt = (427 * x1.toInt + 2097152) / 4194304 := by
  rw [quotient2, toInt_asr, rounded_toInt h]
  rfl

theorem quotient2_range : -423 ≤ (quotient2 x1).toInt ∧ (quotient2 x1).toInt ≤ 424 := by
  rw [quotient2_toInt h]
  omega

theorem quotient2_multiple_toInt :
    (9829 * quotient2 x1).toInt = 9829 * (quotient2 x1).toInt := by
  have hrange := quotient2_range h
  exact toInt_const_mul_of_fits rfl ⟨by omega, by omega⟩

/-- The remainder the second estimate leaves. The bounds are attained at the extreme quotients, so
they do not follow from the range of `x1` and the rounding error taken apart. -/
theorem remainder2_range : InStep2Range (x1.toInt - 9829 * (quotient2 x1).toInt) := by
  have hrange := quotient2_range h
  have hquotient := quotient2_toInt h
  omega

theorem datapathStep2_toInt :
    (datapathStep2 x1).toInt = x1.toInt - 9829 * (quotient2 x1).toInt := by
  have hrange := remainder2_range h
  have hmul := quotient2_multiple_toInt h
  rw [datapathStep2_eq, toInt_sub_of_fits (by rw [hmul]; omega), hmul]

theorem datapathStep2_range : InStep2Range (datapathStep2 x1).toInt := by
  rw [datapathStep2_toInt h]
  exact remainder2_range h

end

/-! ### The final select (40_reduction.md R91, R93) -/

/-- The mask of the select: all ones when the word is negative, 0 otherwise. -/
theorem asr_31_eq (x : Word) :
    x.sshiftRight 31 = if x.toInt < 0 then BitVec.allOnes 32 else 0 := by
  have hlo : -2147483648 ≤ x.toInt := BitVec.le_toInt x
  have hhi : x.toInt < 2147483648 := BitVec.toInt_lt
  rw [← BitVec.toInt_inj, toInt_asr]
  split
  · rw [BitVec.toInt_allOnes]
    omega
  · rw [BitVec.ofNat_eq_ofNat, BitVec.toInt_zero]
    omega

/-- The select adds 9829 exactly to a negative word. -/
theorem datapathSelect_toInt {x2 : Word} (h : InStep2Range x2.toInt) :
    (datapathSelect x2).toInt = x2.toInt + (if x2.toInt < 0 then 9829 else 0) := by
  have hmodulus : (9829 : Word).toInt = 9829 := rfl
  rw [datapathSelect, asr_31_eq]
  split
  · rw [BitVec.and_allOnes, toInt_add_of_fits (by rw [hmodulus]; omega), hmodulus]
  · simp

theorem datapathSelect_range {x2 : Word} (h : InStep2Range x2.toInt) :
    0 ≤ (datapathSelect x2).toInt ∧ (datapathSelect x2).toInt ≤ 9828 := by
  rw [datapathSelect_toInt h]
  split <;> omega

/-! ### The datapath (40_reduction.md R91, R92) -/

/-- Each step keeps the class modulo 9829, and the select ends in [0, 9828]. -/
theorem datapath_toInt {x : Word} (h : InDomain x.toInt) :
    (datapath x).toInt = x.toInt % 9829 := by
  have h1 := datapathStep1_range h
  have h2 := datapathStep2_range h1
  obtain ⟨h0, hle⟩ := datapathSelect_range h2
  have hclass : (datapath x).toInt % 9829 = x.toInt % 9829 := by
    rw [datapath, datapathSelect_toInt h2, datapathStep2_toInt h1, datapathStep1_toInt h]
    split <;> omega
  calc (datapath x).toInt = (datapath x).toInt % 9829 :=
        (Int.emod_eq_of_lt h0 (Int.lt_add_one_of_le hle)).symm
    _ = x.toInt % 9829 := hclass

/-- Settles O24: both words are the residue. -/
theorem datapathHasValueOfReduce : Obligations.DatapathHasValueOfReduce := by
  intro free x h
  rw [← BitVec.toInt_inj, datapath_toInt h, reduce_toInt free h]

/-- Settles O25, step by step. -/
theorem datapathRanges : Obligations.DatapathRanges := by
  rintro x q1 x1 q2 x2 h rfl rfl rfl rfl
  have hmul := mul_13_toInt h
  obtain ⟨hmul_lo, hmul_hi⟩ := mul_13_range h
  obtain ⟨hq1_lo, hq1_hi⟩ := quotient1_range h
  have h1 := datapathStep1_range h
  have ⟨hx1_lo, hx1_hi⟩ := h1
  have hrounded := rounded_toInt h1
  have h2 := datapathStep2_range h1
  have ⟨hx2_lo, hx2_hi⟩ := h2
  exact ⟨hmul, by omega, by omega, hq1_lo, hq1_hi, quotient1_multiple_toInt h,
    datapathStep1_toInt h, hx1_lo, hx1_hi, mul_427_toInt h1, hrounded, by omega, by omega,
    quotient2_multiple_toInt h1, datapathStep2_toInt h1, hx2_lo, hx2_hi,
    datapathSelect_toInt h2, datapathSelect_range h2⟩

/-! ### The commands `FRZ` and `VFRZ` (40_reduction.md R96, R97) -/

/-- A command whose ranges pass changes nothing outside its destination range
(20_memory.md R46). -/
theorem exec_frame {i : Instr} {s t : State} (hok : i.WellFormed) (h : exec i s = .next t) :
    FrameOutside (dstRange i) s t := by
  obtain ⟨-, hstores⟩ | ⟨hbad, -⟩ := exec_cases h
  · exact hstores.frame
  · exact absurd hok hbad

/-- `FRZ` passes the range check whatever its addresses are (60_exceptions.md R211). -/
theorem wellFormed_frz (dst src1 : Addr) : (Instr.frz dst src1).WellFormed := by
  simp only [Instr.WellFormed, rangesOk, lenOk, dstRange, srcRanges, Config.pmemWords_eq,
    List.all_cons, List.all_nil, Bool.true_and, Bool.and_true, Bool.and_eq_true, decide_eq_true_eq]
  omega

theorem wellFormed_vfrz {dst : Addr} {len : Len} :
    (Instr.vfrz dst len).WellFormed ↔ len.toNat ≠ 0 ∧ dst.toNat + len.toNat ≤ 8192 := by
  simp [Instr.WellFormed, rangesOk, lenOk, dstRange, srcRanges, ← BitVec.toNat_inj]

/-- `FRZ` stores the reduced source word (40_reduction.md R96). -/
theorem exec_frz_word (dst src1 : Addr) (s : State) :
    ∃ t, exec (.frz dst src1) s = .next t ∧
      t.readWord dst.toNat = reduce (s.unspec 0) (s.readWord src1.toNat).toInt :=
  ⟨_, congrArg Host.Outcome.next (State.guarded_ok (wellFormed_frz dst src1) _),
    State.readWord_elementwise_inside s dst.toNat 1
      (fun i t => reduce (s.unspec i) (t.readWord (src1.toNat + i)).toInt) Nat.one_pos⟩

/-- `VFRZ` reduces each element's original word, which no earlier element has touched
(40_reduction.md R97; 20_memory.md R47). -/
theorem exec_vfrz_word {dst : Addr} {len : Len} (h : (Instr.vfrz dst len).WellFormed) (s : State) :
    ∃ t, exec (.vfrz dst len) s = .next t ∧ ∀ i < len.toNat,
      t.readWord (dst.toNat + i) =
        reduce (s.unspec i) (s.readWord (dst.toNat + i)).toInt := by
  refine ⟨_, congrArg Host.Outcome.next (State.guarded_ok h _), fun i hi => ?_⟩
  rw [State.readWord_drawn, State.readWord_elementwise_inside _ _ _ _ hi,
    readWord_elementwise_eq_seenAt _ _ _ _ hi, seenAt_of_safe _ _ hi (.inl le_rfl)]

/-- Settles O27, from the word `FRZ` stores and the frame of every command. -/
theorem frzReducesOneWord : Obligations.FrzReducesOneWord := by
  intro dst src1 s
  obtain ⟨t, hexec, hword⟩ := exec_frz_word dst src1 s
  refine ⟨t, hexec, fun hdom => ?_, exec_frame (wellFormed_frz dst src1) hexec⟩
  rw [hword, reduce_toInt _ hdom]

/-- Settles O28, from the words `VFRZ` stores and the frame of every command. -/
theorem vfrzCanonicalizesInPlace : Obligations.VfrzCanonicalizesInPlace := by
  intro dst len s hlen hdst
  have hok := wellFormed_vfrz.mpr ⟨hlen, hdst⟩
  obtain ⟨t, hexec, hword⟩ := exec_vfrz_word hok s
  refine ⟨t, hexec, fun i hi hdom => ?_, exec_frame hok hexec⟩
  rw [hword i hi, reduce_toInt _ hdom]

end Sys2Proof

/-! The polynomial primitives (41_primitives.md): what `VZERO`, `VCOPY`, `VADD`, `VACC` and `VSMUL`
store and leave unchanged (R111 to R115), upward copying (20_memory.md R48), negation (R116) and the
accumulation bound (R117). -/

namespace Sys2Proof

open Sys2Proof.Machine

/-! ### The five commands on every legal range (41_primitives.md R111 to R115) -/

theorem wellFormed_vzero {dst : Addr} {len : Len} :
    (Instr.vzero dst len).WellFormed ↔ len.toNat ≠ 0 ∧ dst.toNat + len.toNat ≤ 8192 :=
  wellFormed_vfrz

/-- `VZERO` stores zeros (41_primitives.md R111). -/
theorem exec_vzero_word {dst : Addr} {len : Len} (h : (Instr.vzero dst len).WellFormed)
    (s : State) : ∃ t, exec (.vzero dst len) s = .next t ∧
      ∀ i < len.toNat, t.readWord (dst.toNat + i) = 0 :=
  ⟨_, congrArg Host.Outcome.next (State.guarded_ok h _), fun _ hi =>
    State.readWord_elementwise_inside s dst.toNat len.toNat (fun _ _ => 0) hi⟩

/-- Settles O29, from the words `VZERO` stores and the frame of every command. -/
theorem vzeroStoresZeros : Obligations.VzeroStoresZeros := by
  intro dst len s hlen hdst
  have hok := wellFormed_vzero.mpr ⟨hlen, hdst⟩
  obtain ⟨t, hexec, hword⟩ := exec_vzero_word hok s
  exact ⟨t, hexec, hword, exec_frame hok hexec⟩

/-- Settles O30, from the words `VCOPY` sees and the frame of every command. -/
theorem vcopyCopiesAscending : Obligations.VcopyCopiesAscending := by
  intro dst src1 len s hlen hdst hsrc1
  have hok := wellFormed_vcopy.mpr ⟨hlen, hdst, hsrc1⟩
  obtain ⟨t, hexec, hword⟩ := exec_vcopy_seenAt hok s
  exact ⟨t, hexec, hword, exec_frame hok hexec⟩

/-- Settles O31: inside the domain the reduced sum is the residue of the sum. -/
theorem vaddAddsAndReduces : Obligations.VaddAddsAndReduces := by
  intro dst src1 src2 len s hlen hdst hsrc1 hsrc2
  have hok := wellFormed_vadd.mpr ⟨hlen, hdst, hsrc1, hsrc2⟩
  obtain ⟨t, hexec, hword⟩ := exec_vadd_seenAt hok s
  refine ⟨t, hexec, fun i hi hdom => ?_, exec_frame hok hexec⟩
  rw [hword i hi, reduce_toInt _ hdom]

/-- Settles O32, from the words `VACC` sees and the frame of every command. -/
theorem vaccAccumulatesWrapping : Obligations.VaccAccumulatesWrapping := by
  intro dst src1 len s hlen hdst hsrc1
  have hok := wellFormed_vacc.mpr ⟨hlen, hdst, hsrc1⟩
  obtain ⟨t, hexec, hword⟩ := exec_vacc_seenAt hok s
  exact ⟨t, hexec, hword, exec_frame hok hexec⟩

/-- Settles O33: inside the domain the reduced product is the residue of the product. -/
theorem vsmulScalesAndReduces : Obligations.VsmulScalesAndReduces := by
  intro dst src1 imm len s hlen hdst hsrc1
  have hok := wellFormed_vsmul (imm := imm).mpr ⟨hlen, hdst, hsrc1⟩
  obtain ⟨t, hexec, hword⟩ := exec_vsmul_seenAt hok s
  refine ⟨t, hexec, fun i hi hdom => ?_, exec_frame hok hexec⟩
  rw [hword i hi, reduce_toInt _ hdom]

/-! ### Copying upwards over itself (20_memory.md R48 (c)) -/

/-- The source words below the destination are the original ones. -/
theorem seenAt_below (s t : State) {dst i a : Nat} (h : a < dst) :
    seenAt s t dst i a = s.readWord a :=
  if_neg (by omega)

/-- From the destination on, the source words are those the command has itself written. -/
theorem seenAt_written (s t : State) {dst i k : Nat} (h : k < i) :
    seenAt s t dst i (dst + k) = t.readWord (dst + k) :=
  if_pos (by omega)

/-- Words copied upwards in ascending order repeat with the distance of the copy as their period:
the first period is original, and each later word was written one period earlier. -/
theorem readWord_of_ascending_copy {s t : State} {dst src d n : Nat} (hd : 0 < d)
    (hdst : dst = src + d)
    (hcopy : ∀ i < n, t.readWord (dst + i) = seenAt s t dst i (src + i)) :
    ∀ i < n, t.readWord (dst + i) = s.readWord (src + i % d) := by
  intro i
  induction i using Nat.strong_induction_on with
  | _ i ih =>
    intro hi
    obtain hfirst | hlater := lt_or_ge i d
    · rw [hcopy i hi, seenAt_below s t (by omega), Nat.mod_eq_of_lt hfirst]
    · have hsource : src + i = dst + (i - d) := by omega
      calc t.readWord (dst + i)
          = t.readWord (dst + (i - d)) := by
            rw [hcopy i hi, hsource, seenAt_written s t (by omega)]
        _ = s.readWord (src + (i - d) % d) := ih (i - d) (by omega) (by omega)
        _ = s.readWord (src + i % d) := by rw [← Nat.mod_eq_sub_mod hlater]

/-- Settles O35: `VCOPY` is an ascending copy, upwards by `dst - src1`. -/
theorem copyUpwardRepeats : Obligations.CopyUpwardRepeats := by
  intro dst src1 len s hlen hdst hup _
  have hsrc1 : src1.toNat + len.toNat ≤ 8192 := by omega
  obtain ⟨t, hexec, hword⟩ := exec_vcopy_seenAt (wellFormed_vcopy.mpr ⟨hlen, hdst, hsrc1⟩) s
  exact ⟨t, hexec, readWord_of_ascending_copy (by omega) (by omega) hword⟩

/-! ### Negation (41_primitives.md R116) -/

theorem inDomain_neg {x : Int} (h : InDomain x) : InDomain (-x) :=
  ⟨neg_lt_neg h.2, neg_lt.mp h.1⟩

/-- `VNEG` stores the reduced negations of the words it sees (30_encoding.md R77). -/
theorem exec_vneg_seenAt {dst src1 : Addr} {len : Len}
    (h : (vneg dst src1 len).WellFormed) (s : State) :
    ∃ t, exec (vneg dst src1 len) s = .next t ∧ ∀ i < len.toNat,
      t.readWord (dst.toNat + i) = reduce (s.unspec i)
        (-(seenAt s t dst.toNat i (src1.toNat + i)).toInt) := by
  obtain ⟨t, hexec, hword⟩ := exec_vsmul_seenAt h s
  have himm : (-1 : Imm).toInt = -1 := by decide
  exact ⟨t, hexec, fun i hi => by rw [hword i hi, himm, neg_one_mul]⟩

/-- Settles O36: the residue of `-x` is that of `9829 - x`, and it is 0 for a multiple of 9829. -/
theorem vnegNegates : Obligations.VnegNegates := by
  intro dst src1 len s hlen hdst hsrc1
  obtain ⟨t, hexec, hword⟩ := exec_vneg_seenAt (wellFormed_vsmul.mpr ⟨hlen, hdst, hsrc1⟩) s
  refine ⟨t, hexec, fun i hi hdom => ?_⟩
  have hneg := inDomain_neg hdom
  rw [hword i hi]
  refine ⟨?value, fun hmultiple => ?zero, reduce_canonical _ hneg⟩
  case value => rw [reduce_toInt _ hneg, sub_eq_neg_add, Int.add_emod_right]
  case zero =>
    exact BitVec.eq_of_toInt_eq
      ((reduce_toInt _ hneg).trans (Int.emod_eq_zero_of_dvd hmultiple.neg_right))

/-! ### The accumulation bound (41_primitives.md R117) -/

/-- A sum of canonical words is at most their number times the largest canonical word. -/
theorem sum_canonical_range {l : List Word} (h : AllCanonical l) :
    0 ≤ (l.map BitVec.toInt).sum ∧ (l.map BitVec.toInt).sum ≤ l.length * 9828 := by
  rw [allCanonical_iff] at h
  constructor
  · exact List.sum_nonneg (List.forall_mem_map.mpr fun w hw => (h w hw).1)
  · have hle := List.sum_le_card_nsmul (l.map BitVec.toInt) 9828
      (List.forall_mem_map.mpr fun w hw => Int.lt_add_one_iff.mp (h w hw).2)
    rwa [List.length_map, nsmul_eq_mul] at hle

/-- A sum that fits a word does not wrap. -/
theorem wrap32_toInt_of_fits {v : Int} (h : FitsWord v) : (wrap32 v).toInt = v := by
  rw [wrap32, BitVec.toInt_ofInt, h.bmod_eq]

theorem allCanonical_append_singleton {l : List Word} {w : Word} (hl : AllCanonical l)
    (hw : Canonical w) : AllCanonical (l ++ [w]) := by
  rw [allCanonical_iff, List.forall_mem_append, List.forall_mem_singleton]
  exact ⟨(allCanonical_iff l).mp hl, hw⟩

/-- Accumulating one canonical word more onto an exact sum gives the exact sum, inside the domain of
`reduce`, while there are at most 16808 words in all: 16808 * 9828 < 165191050. -/
theorem accumulate_canonical {l : List Word} {w : Word} (hl : AllCanonical l)
    (hlen : l.length ≤ 16807) (hw : Canonical w) :
    (wrap32 ((l.map BitVec.toInt).sum + w.toInt)).toInt = ((l ++ [w]).map BitVec.toInt).sum ∧
      InDomain ((l ++ [w]).map BitVec.toInt).sum := by
  have hsum : ((l ++ [w]).map BitVec.toInt).sum = (l.map BitVec.toInt).sum + w.toInt := by simp
  obtain ⟨hlo, hhi⟩ := sum_canonical_range (allCanonical_append_singleton hl hw)
  rw [List.length_append, List.length_singleton] at hhi
  rw [← hsum]
  refine ⟨wrap32_toInt_of_fits ⟨by omega, by omega⟩, ?_⟩
  simp only [InDomain, Config.rbound_eq]
  omega

/-- Settles O37: the word `VACC` stores is the next exact sum; 16808 canonical words stay inside the
domain, and 16809 words of 9828 do not. -/
theorem accumulationBudget : Obligations.AccumulationBudget := by
  intro dst src1 len s hlen hdst hsrc1
  obtain ⟨t, hexec, hword⟩ := exec_vacc_seenAt (wellFormed_vacc.mpr ⟨hlen, hdst, hsrc1⟩) s
  refine ⟨t, hexec, fun i hi w hseen => ?_⟩
  rw [hword i hi, ← hseen]
  refine ⟨fun l hl hcount hold hw => ?within, fun hold hlast => ?beyond⟩
  case within =>
    obtain ⟨hexact, hdom⟩ := accumulate_canonical hl hcount hw
    rw [hold, hexact]
    exact ⟨rfl, hdom⟩
  case beyond =>
    rw [hold, hlast]
    decide

end Sys2Proof

/-! The schoolbook convolver (42_schoolbook.md): the words `CONV4` stores are the sums of the
reduced products of its diagonals (R131), their range (R132), and the convolution they compute
(R130). -/

namespace Sys2Proof

open Sys2Proof.Machine

/-! ### The accumulation loop (42_schoolbook.md R131) -/

theorem elem_addAt (p : List Word) (m : Nat) (v : Word) {k : Nat} (hk : k < p.length) :
    elem (addAt p m v) k = elem p k + if m = k then v else 0 := by
  rw [elem_of_lt (by simpa using hk), elem_of_lt hk]
  simp only [addAt, List.getElem_set]
  split
  · next hm => rw [hm, elem_of_lt hk]
  · simp

/-- Adding words at positions, one after the other: each position gains the sum of the words added
there. -/
theorem elem_foldl_addAt {α : Type} (pos : α → Nat) (v : α → Word) (l : List α)
    (p : List Word) {k : Nat} (hk : k < p.length) :
    elem (l.foldl (fun p x => addAt p (pos x) (v x)) p) k =
      elem p k + ((l.filter fun x => pos x = k).map v).sum := by
  induction l generalizing p with
  | nil => simp
  | cons x l ih =>
    rw [List.foldl_cons, ih _ (by simpa using hk), elem_addAt p _ _ hk]
    by_cases hx : pos x = k
    · simp [hx, add_assoc]
    · simp [hx]

/-- The pairs `(i, j)` of the loops whose product is added to word `k`. -/
def diagonal (k : Nat) : List (Nat × Nat) := conv4Pairs.filter fun ij => ij.1 + ij.2 = k

theorem mem_diagonal {k : Nat} {ij : Nat × Nat} :
    ij ∈ diagonal k ↔ ij.1 < 4 ∧ ij.2 < 4 ∧ ij.1 + ij.2 = k := by
  obtain ⟨i, j⟩ := ij
  simp [diagonal, conv4Pairs, and_assoc]

/-- Word 7 receives no product (42_schoolbook.md R132). -/
theorem length_diagonal : ∀ k < 8, (diagonal k).length = min (k + 1) (7 - k) := by decide

/-- The sum over a diagonal as a double sum over the indices of the operands. -/
theorem sum_diagonal (k : Nat) (v : Nat × Nat → Int) :
    ((diagonal k).map v).sum =
      ∑ i ∈ Finset.range 4, ∑ j ∈ Finset.range 4, if i + j = k then v (i, j) else 0 := by
  have hnodup : (diagonal k).Nodup := List.Nodup.filter _ (by decide : conv4Pairs.Nodup)
  have hpairs : (diagonal k).toFinset =
      {ij ∈ Finset.range 4 ×ˢ Finset.range 4 | ij.1 + ij.2 = k} := by
    ext ij
    simp [mem_diagonal, and_assoc]
  rw [← List.sum_toFinset v hnodup, hpairs, Finset.sum_filter, Finset.sum_product]

/-- The product of a pair, in `Z`. -/
def pairProduct (f g : List Word) (ij : Nat × Nat) : Int := elemInt f ij.1 * elemInt g ij.2

/-- Word `k` of the convolver is the wrapped sum of the reduced products of its diagonal. -/
theorem elem_conv4 (red : Nat → Nat → Int → Word) (f g : List Word) {k : Nat} (hk : k < 8) :
    elem (conv4 red f g) k =
      ((diagonal k).map fun ij => red ij.1 ij.2 (pairProduct f g ij)).sum := by
  have hfold := elem_foldl_addAt (fun ij : Nat × Nat => ij.1 + ij.2)
    (fun ij => red ij.1 ij.2 (pairProduct f g ij)) conv4Pairs (seqZero 8) (k := k) (by simpa)
  rwa [elem_seqZero, zero_add] at hfold

/-! ### Words whose products are all reduced (42_schoolbook.md R131, R132) -/

/-- The sum of canonical words, as many as fit the domain of `reduce`, does not wrap
(41_primitives.md R117). -/
theorem toInt_sum_canonical {l : List Word} (h : AllCanonical l) (hlen : l.length ≤ 16808) :
    l.sum.toInt = (l.map BitVec.toInt).sum := by
  induction l with
  | nil => rfl
  | cons w l ih =>
    obtain ⟨hlo, hhi⟩ := sum_canonical_range h
    have htail : AllCanonical l :=
      (allCanonical_iff l).mpr fun x hx => (allCanonical_iff _).mp h x (List.mem_cons_of_mem w hx)
    simp only [List.map_cons, List.sum_cons, List.length_cons] at hlo hhi hlen ⊢
    have hsum := ih htail (by omega)
    rw [toInt_add_of_fits (by rw [hsum]; omega), hsum]

/-- Every product that is added to word `k` is reduced to its residue. -/
def ReducesDiagonal (red : Nat → Nat → Int → Word) (f g : List Word) (k : Nat) : Prop :=
  ∀ ij ∈ diagonal k, red ij.1 ij.2 (pairProduct f g ij) = residue (pairProduct f g ij)

section
variable {red : Nat → Nat → Int → Word} {f g : List Word} {k : Nat} (hk : k < 8)
  (h : ReducesDiagonal red f g k)
include hk h

/-- The sum of a word's residues is exact, and it is at most 9828 for each product of the word. -/
theorem elemInt_conv4_eq_and_range :
    elemInt (conv4 red f g) k = ((diagonal k).map fun ij => pairProduct f g ij % 9829).sum ∧
      0 ≤ elemInt (conv4 red f g) k ∧
      elemInt (conv4 red f g) k ≤ (min (k + 1) (7 - k) : Nat) * 9828 := by
  have hcanonical : AllCanonical ((diagonal k).map fun ij => residue (pairProduct f g ij)) :=
    (allCanonical_iff _).mpr (List.forall_mem_map.mpr fun ij _ => residue_canonical _)
  have hlen := length_diagonal k hk
  have hrange := sum_canonical_range hcanonical
  have hword : elemInt (conv4 red f g) k =
      (((diagonal k).map fun ij => residue (pairProduct f g ij)).map BitVec.toInt).sum := by
    rw [elemInt, elem_conv4 red f g hk, List.map_congr_left h,
      toInt_sum_canonical hcanonical (by rw [List.length_map, hlen]; omega)]
  rw [List.length_map, hlen, ← hword] at hrange
  refine ⟨?_, hrange⟩
  rw [hword, List.map_map]
  simp [Function.comp_def, residue_toInt]

theorem elemInt_conv4 :
    elemInt (conv4 red f g) k = ((diagonal k).map fun ij => pairProduct f g ij % 9829).sum :=
  (elemInt_conv4_eq_and_range hk h).1

theorem elemInt_conv4_range :
    0 ≤ elemInt (conv4 red f g) k ∧
      elemInt (conv4 red f g) k ≤ (min (k + 1) (7 - k) : Nat) * 9828 :=
  (elemInt_conv4_eq_and_range hk h).2

end

/-! ### The convolution (42_schoolbook.md R130) -/

theorem elemInt_of_ge {f : List Word} {i : Nat} (h : f.length ≤ i) : elemInt f i = 0 := by
  rw [elemInt, elem_of_ge h]
  rfl

/-- A coefficient of the convolution as a double sum over the indices of the operands, `i` and `j`
independent (00_scope.md R9). -/
theorem convCoeff_eq_sum_sum {f g : List Word} {m n : Nat} (hf : f.length ≤ m)
    (hg : g.length ≤ n) (k : Nat) :
    convCoeff f g k = ∑ i ∈ Finset.range m, ∑ j ∈ Finset.range n,
      if i + j = k then elemInt f i * elemInt g j else 0 := by
  rw [convCoeff,
    ← Finset.Nat.sum_antidiagonal_eq_sum_range_succ fun i j => elemInt f i * elemInt g j,
    ← Finset.sum_product' (Finset.range m) (Finset.range n)
      fun i j => if i + j = k then elemInt f i * elemInt g j else 0, ← Finset.sum_filter]
  symm
  refine Finset.sum_subset (fun ij hij => ?inside) fun ij hij hout => ?beyond
  case inside => exact Finset.HasAntidiagonal.mem_antidiagonal.mpr (Finset.mem_filter.mp hij).2
  case beyond =>
    have hsum := Finset.HasAntidiagonal.mem_antidiagonal.mp hij
    simp only [Finset.mem_filter, Finset.mem_product, Finset.mem_range, hsum, and_true,
      not_and_or, not_lt] at hout
    obtain hi | hj := hout
    · rw [elemInt_of_ge (hf.trans hi), zero_mul]
    · rw [elemInt_of_ge (hg.trans hj), mul_zero]

/-- Word `k` of the convolver is congruent to `conv(f, g)[k]`. -/
theorem elemInt_conv4_emod {red : Nat → Nat → Int → Word} {f g : List Word} {k : Nat}
    (hk : k < 8) (h : ReducesDiagonal red f g k) (hf : f.length ≤ 4) (hg : g.length ≤ 4) :
    elemInt (conv4 red f g) k % 9829 = convCoeff f g k % 9829 := by
  have hconv : convCoeff f g k = ((diagonal k).map (pairProduct f g)).sum := by
    rw [convCoeff_eq_sum_sum hf hg, sum_diagonal]
    rfl
  rw [elemInt_conv4 hk h, hconv, List.sum_int_mod ((diagonal k).map (pairProduct f g)),
    List.map_map, List.sum_int_mod, List.map_map]
  simp [Function.comp_def]

/-! ### The command `CONV4` -/

theorem wellFormed_conv4 {dst src1 src2 : Addr} :
    (Instr.conv4 dst src1 src2).WellFormed ↔
      dst.toNat + 8 ≤ 8192 ∧ src1.toNat + 4 ≤ 8192 ∧ src2.toNat + 4 ≤ 8192 := by
  simp [Instr.WellFormed, rangesOk, lenOk, dstRange, srcRanges]

/-- `CONV4` stores the words of the convolver on the snapshot of its operands
(42_schoolbook.md R131; 20_memory.md R49). -/
theorem exec_conv4_word {dst src1 src2 : Addr} (h : (Instr.conv4 dst src1 src2).WellFormed)
    (s : State) :
    ∃ t, exec (.conv4 dst src1 src2) s = .next t ∧ ∀ k < 8, t.readWord (dst.toNat + k) =
      elem (conv4 (fun i j x => reduce (s.unspec (4 * i + j)) x)
        (s.memRead src1.toNat 4) (s.memRead src2.toNat 4)) k := by
  refine ⟨_, congrArg Host.Outcome.next (State.guarded_ok h _), fun k hk => ?_⟩
  rw [State.readWord_composite, conv4_length, if_pos (by omega), Nat.add_sub_cancel_left]

/-- Products inside the domain are reduced to their residues, whatever the free words are
(40_reduction.md R90). -/
theorem reducesDiagonal_reduce (free : Nat → Nat → Word) {f g : List Word} {k : Nat}
    (h : ∀ ij ∈ diagonal k, InDomain (pairProduct f g ij)) :
    ReducesDiagonal (fun i j => reduce (free i j)) f g k :=
  fun ij hij => reduce_of_inDomain _ (h ij hij)

/-- The product of two operands in PMEM is that of the words at their addresses. -/
theorem pairProduct_memRead (s : State) (a b : Nat) {ij : Nat × Nat} (hi : ij.1 < 4)
    (hj : ij.2 < 4) :
    pairProduct (s.memRead a 4) (s.memRead b 4) ij =
      (s.readWord (a + ij.1)).toInt * (s.readWord (b + ij.2)).toInt := by
  rw [pairProduct, elemInt, elemInt, State.elem_memRead _ _ _ _ hi, State.elem_memRead _ _ _ _ hj]

/-- Settles O38: each word is the exact sum of the residues of its diagonal. -/
theorem conv4SumsReducedProducts : Obligations.Conv4SumsReducedProducts := by
  intro dst src1 src2 s hdst hsrc1 hsrc2
  have hok := wellFormed_conv4.mpr ⟨hdst, hsrc1, hsrc2⟩
  obtain ⟨t, hexec, hword⟩ := exec_conv4_word hok s
  refine ⟨t, hexec, fun k hk hdom => ?_, exec_frame hok hexec⟩
  have hproducts : ∀ ij ∈ diagonal k, pairProduct (s.memRead src1.toNat 4)
      (s.memRead src2.toNat 4) ij = (s.readWord (src1.toNat + ij.1)).toInt *
        (s.readWord (src2.toNat + ij.2)).toInt := fun ij hij =>
    have ⟨hi, hj, _⟩ := mem_diagonal.mp hij
    pairProduct_memRead s _ _ hi hj
  have hreduces : ReducesDiagonal (fun i j => reduce (s.unspec (4 * i + j)))
      (s.memRead src1.toNat 4) (s.memRead src2.toNat 4) k :=
    reducesDiagonal_reduce _ fun ij hij => by
      obtain ⟨hi, hj, hsum⟩ := mem_diagonal.mp hij
      rw [hproducts ij hij]
      exact hdom ij.1 hi ij.2 hj hsum
  rw [hword k hk, ← elemInt, elemInt_conv4 hk hreduces,
    List.map_congr_left fun ij hij => congrArg (· % 9829) (hproducts ij hij)]
  exact sum_diagonal k _

/-- Elements past the end count: they are 0. -/
theorem elemInt_canonical {f : List Word} (h : AllCanonical f) (i : Nat) :
    0 ≤ elemInt f i ∧ elemInt f i ≤ 9828 := by
  obtain hi | hi := lt_or_ge i f.length
  · rw [elemInt, elem_of_lt hi]
    obtain ⟨h0, hq⟩ := (allCanonical_iff f).mp h _ (List.getElem_mem hi)
    exact ⟨h0, Int.lt_add_one_iff.mp hq⟩
  · simp [elemInt_of_ge hi]

/-- The largest product of canonical words, 9828 * 9828, is inside the domain
(42_schoolbook.md R133). -/
theorem inDomain_pairProduct {f g : List Word} (hf : AllCanonical f) (hg : AllCanonical g)
    (ij : Nat × Nat) : InDomain (pairProduct f g ij) := by
  obtain ⟨hf0, hfq⟩ := elemInt_canonical hf ij.1
  obtain ⟨hg0, hgq⟩ := elemInt_canonical hg ij.2
  have h0 : 0 ≤ pairProduct f g ij := mul_nonneg hf0 hg0
  have hle : pairProduct f g ij ≤ 9828 * 9828 := mul_le_mul hfq hgq hg0 (by decide)
  simp only [InDomain, Config.rbound_eq]
  omega

/-- Settles O39: canonical operands keep every product inside the domain. -/
theorem conv4Convolves : Obligations.Conv4Convolves := by
  intro dst src1 src2 s hdst hsrc1 hsrc2 hf hg
  obtain ⟨t, hexec, hword⟩ := exec_conv4_word (wellFormed_conv4.mpr ⟨hdst, hsrc1, hsrc2⟩) s
  refine ⟨t, hexec, fun k hk => ?_⟩
  have hreduces : ReducesDiagonal (fun i j => reduce (s.unspec (4 * i + j)))
      (s.memRead src1.toNat 4) (s.memRead src2.toNat 4) k :=
    reducesDiagonal_reduce _ fun ij _ => inDomain_pairProduct hf hg ij
  rw [hword k hk, ← elemInt]
  exact ⟨elemInt_conv4_emod hk hreduces (by simp) (by simp), elemInt_conv4_range hk hreduces⟩

end Sys2Proof

/-! The Karatsuba tree (43_karatsuba.md): accumulation without overflow, the closed form of a level
in `Z` (R143), the bounds of the levels (R144), the convolution they compute (R140, R141), and the
commands `KMUL8` to `KMUL128` (R145 to R149). -/

namespace Sys2Proof

open Sys2Proof.Machine

/-! ### The elements of the sequence functions, in `Z` -/

theorem elemInt_seqAdd {a b : List Word} (hlen : a.length = b.length) (k : Nat) :
    elemInt (seqAdd a b) k = (elemInt a k + elemInt b k) % 9829 := by
  obtain hk | hk := lt_or_ge k a.length
  · have hsum : k < (seqAdd a b).length := by rw [seqAdd_length]; omega
    simp only [elemInt, elem_of_lt hsum, elem_of_lt hk, elem_of_lt (hlen ▸ hk)]
    simp [seqAdd, residue_toInt]
  · rw [elemInt_of_ge (f := seqAdd a b) (by rw [seqAdd_length]; omega), elemInt_of_ge hk,
      elemInt_of_ge (hlen ▸ hk)]
    rfl

theorem elemInt_seqScale (c : Int) (a : List Word) (k : Nat) :
    elemInt (seqScale c a) k = c * elemInt a k % 9829 := by
  obtain hk | hk := lt_or_ge k a.length
  · have hscaled : k < (seqScale c a).length := by simpa using hk
    simp only [elemInt, elem_of_lt hscaled, elem_of_lt hk]
    simp [seqScale, residue_toInt]
  · rw [elemInt_of_ge (by simpa using hk), elemInt_of_ge hk, mul_zero]
    rfl

theorem elemInt_seqZero (n k : Nat) : elemInt (seqZero n) k = 0 := by
  rw [elemInt, elem_seqZero]
  rfl

/-- The term `Nn` of the level procedure: the canonical negation of `A + B`
(43_karatsuba.md R142). -/
def negatedSum (a b : List Word) : List Word := seqScale (-1) (seqAdd a b)

/-- The formula of 43_karatsuba.md R143. -/
theorem elemInt_negatedSum {a b : List Word} (hlen : a.length = b.length) (k : Nat) :
    elemInt (negatedSum a b) k = (9829 - (elemInt a k + elemInt b k) % 9829) % 9829 := by
  rw [negatedSum, elemInt_seqScale, elemInt_seqAdd hlen]
  omega

/-! ### Accumulation that does not wrap (43_karatsuba.md R144) -/

/-- Element `k` of a sequence that is laid down at offset `off`. -/
def shifted (off : Nat) (p : List Word) (k : Nat) : Int :=
  if off ≤ k then elemInt p (k - off) else 0

theorem shifted_of_lt {off : Nat} {p : List Word} {k : Nat} (h : k < off) :
    shifted off p k = 0 :=
  if_neg (by omega)

theorem shifted_of_le {off : Nat} {p : List Word} {k : Nat} (h : off ≤ k) :
    shifted off p k = elemInt p (k - off) :=
  if_pos h

theorem shifted_of_ge {off : Nat} {p : List Word} {k : Nat} (h : off + p.length ≤ k) :
    shifted off p k = 0 := by
  rw [shifted_of_le (by omega), elemInt_of_ge (by omega)]

/-- A sequence of `n` words, every one between 0 and `u`. -/
structure WordsWithin (n : Nat) (u : Int) (p : List Word) : Prop where
  length : p.length = n
  range : ∀ k, 0 ≤ elemInt p k ∧ elemInt p k ≤ u

theorem wordsWithin_seqZero (n : Nat) : WordsWithin n 0 (seqZero n) where
  length := seqZero_length n
  range k := by simp [elemInt_seqZero]

theorem wordsWithin_negatedSum {a b : List Word} {n : Nat} (ha : a.length = n)
    (hb : b.length = n) : WordsWithin n 9828 (negatedSum a b) where
  length := by simp [negatedSum, ha, hb]
  range k := by
    rw [elemInt_negatedSum (ha.trans hb.symm)]
    omega

theorem WordsWithin.shifted_range {n : Nat} {u : Int} {p : List Word} (h : WordsWithin n u p)
    (off k : Nat) : 0 ≤ shifted off p k ∧ shifted off p k ≤ u := by
  obtain hk | hk := lt_or_ge k off
  · have ⟨_, _⟩ := h.range 0
    rw [shifted_of_lt hk]
    omega
  · rw [shifted_of_le hk]
    exact h.range _

section
variable {off m n : Nat} {src buf : List Word} {u w : Int} (hbuf : WordsWithin n u buf)
  (hsrc : WordsWithin m w src) (hinside : off + m ≤ n) (hfits : u + w < 2147483648)
include hbuf hsrc hinside hfits

/-- Accumulating non-negative words whose bounds add up to less than 2^31 is exact. -/
theorem elemInt_seqAcc (k : Nat) :
    elemInt (seqAcc off src buf) k = elemInt buf k + shifted off src k := by
  have hlen : off + src.length ≤ buf.length := by rwa [hbuf.length, hsrc.length]
  have ⟨hbuf_lo, hbuf_hi⟩ := hbuf.range k
  have ⟨hsrc_lo, hsrc_hi⟩ := hsrc.range (k - off)
  rw [elemInt, elem_seqAcc hlen]
  split
  · next hk =>
    rw [shifted_of_le hk.1]
    exact toInt_add_of_fits
      (show FitsWord (elemInt buf k + elemInt src (k - off)) from ⟨by omega, by omega⟩)
  · next hk =>
    have hzero : shifted off src k = 0 := by
      obtain hbefore | hafter : k < off ∨ off + src.length ≤ k := by omega
      · exact shifted_of_lt hbefore
      · exact shifted_of_ge hafter
    rw [hzero, add_zero, elemInt]

theorem wordsWithin_seqAcc : WordsWithin n (u + w) (seqAcc off src buf) where
  length := by rw [seqAcc_length (by rwa [hbuf.length, hsrc.length]), hbuf.length]
  range k := by
    have ⟨_, _⟩ := hbuf.range k
    have ⟨_, _⟩ := hsrc.shifted_range off k
    rw [elemInt_seqAcc hbuf hsrc hinside hfits]
    omega

end

/-! ### The closed form of a level (43_karatsuba.md R143) -/

/-- Word `k` of a level's output, from the products `A`, `B` and `C` of its halves of length `len`
(43_karatsuba.md R143). -/
def levelWord (len : Nat) (a b c : List Word) (k : Nat) : Int :=
  (if k < 2 * len then elemInt a k else elemInt b (k - 2 * len)) +
    if len ≤ k ∧ k < 3 * len then
      (9829 - (elemInt a (k - len) + elemInt b (k - len)) % 9829) % 9829 + elemInt c (k - len)
    else 0

theorem recombine_eq (len : Nat) (a b c : List Word) :
    recombine len a b c = seqAcc len c (seqAcc len (negatedSum a b)
      (seqAcc (2 * len) b (seqAcc 0 a (seqZero (4 * len))))) := rfl

/-- The last output word is that of `B` (43_karatsuba.md R143). -/
theorem levelWord_last {len : Nat} (hlen : 0 < len) (a b c : List Word) :
    levelWord len a b c (4 * len - 1) = elemInt b (2 * len - 1) := by
  rw [levelWord, if_neg (by omega), if_neg (by omega), add_zero,
    show 4 * len - 1 - 2 * len = 2 * len - 1 by omega]

section
variable {len : Nat} {a b c : List Word} {u : Int} (ha : WordsWithin (2 * len) u a)
  (hb : WordsWithin (2 * len) u b) (hc : WordsWithin (2 * len) u c)
include ha hb hc

/-- Each output word has at most one of `A` and `B` in it (43_karatsuba.md R144). -/
theorem levelWord_range (k : Nat) :
    0 ≤ levelWord len a b c k ∧ levelWord len a b c k ≤ 2 * u + 9828 := by
  have ⟨_, _⟩ := ha.range k
  have ⟨_, _⟩ := hb.range (k - 2 * len)
  have ⟨_, _⟩ := hc.range (k - len)
  unfold levelWord
  omega

/-- The four parts of a level's output at their offsets: `A` ends where `B` begins, and the other
two lie in the middle. -/
theorem sum_shifted_eq_levelWord (k : Nat) :
    shifted 0 a k + shifted (2 * len) b k + shifted len (negatedSum a b) k + shifted len c k =
      levelWord len a b c k := by
  have hn := (wordsWithin_negatedSum ha.length hb.length).length
  have ha_len := ha.length
  have hc_len := hc.length
  have hends : shifted 0 a k + shifted (2 * len) b k =
      if k < 2 * len then elemInt a k else elemInt b (k - 2 * len) := by
    split
    · next hk => rw [shifted_of_lt hk, add_zero, shifted_of_le (Nat.zero_le k), Nat.sub_zero]
    · next hk => rw [shifted_of_ge (by omega), zero_add, shifted_of_le (by omega)]
  have hmiddle : shifted len (negatedSum a b) k + shifted len c k =
      if len ≤ k ∧ k < 3 * len then
        (9829 - (elemInt a (k - len) + elemInt b (k - len)) % 9829) % 9829 + elemInt c (k - len)
      else 0 := by
    split
    · next hk =>
      rw [shifted_of_le hk.1, shifted_of_le hk.1,
        elemInt_negatedSum (ha.length.trans hb.length.symm)]
    · next hk =>
      obtain hbefore | hafter : k < len ∨ 3 * len ≤ k := by omega
      · rw [shifted_of_lt hbefore, shifted_of_lt hbefore, add_zero]
      · rw [shifted_of_ge (by omega), shifted_of_ge (by omega), add_zero]
  rw [levelWord, add_assoc, hends, hmiddle]

variable (hfits : 3 * u + 9828 < 2147483648)
include hfits

/-- The four accumulations of the recombination are exact (43_karatsuba.md R142). -/
theorem elemInt_recombine_eq_sum_shifted (k : Nat) :
    elemInt (recombine len a b c) k =
      shifted 0 a k + shifted (2 * len) b k + shifted len (negatedSum a b) k +
        shifted len c k := by
  have ⟨_, _⟩ := ha.range 0
  have hzero := wordsWithin_seqZero (4 * len)
  have hn := wordsWithin_negatedSum ha.length hb.length
  have hlow := wordsWithin_seqAcc (off := 0) hzero ha (by omega) (by omega)
  have hhigh := wordsWithin_seqAcc (off := 2 * len) hlow hb (by omega) (by omega)
  have hneg := wordsWithin_seqAcc (off := len) hhigh hn (by omega) (by omega)
  rw [recombine_eq, elemInt_seqAcc hneg hc (by omega) (by omega),
    elemInt_seqAcc hhigh hn (by omega) (by omega), elemInt_seqAcc hlow hb (by omega) (by omega),
    elemInt_seqAcc hzero ha (by omega) (by omega), elemInt_seqZero, zero_add]

theorem elemInt_recombine (k : Nat) :
    elemInt (recombine len a b c) k = levelWord len a b c k := by
  rw [elemInt_recombine_eq_sum_shifted ha hb hc hfits, sum_shifted_eq_levelWord ha hb hc]

theorem wordsWithin_recombine : WordsWithin (4 * len) (2 * u + 9828) (recombine len a b c) where
  length := recombine_length ha.length hb.length hc.length
  range k := by
    rw [elemInt_recombine ha hb hc hfits]
    exact levelWord_range ha hb hc k

end

/-! ### The convolution as a product of power series modulo 9829 (43_karatsuba.md R141) -/

/-- The residues of a sequence modulo 9829 as the coefficients of a power series. -/
def residueSeries (p : List Word) : PowerSeries (ZMod 9829) :=
  .mk fun k => (elemInt p k : ZMod 9829)

@[simp] theorem coeff_residueSeries (p : List Word) (k : Nat) :
    PowerSeries.coeff k (residueSeries p) = (elemInt p k : ZMod 9829) :=
  PowerSeries.coeff_mk ..

@[simp] theorem coeff_X_pow_mul_residueSeries (off : Nat) (p : List Word) (k : Nat) :
    PowerSeries.coeff k (PowerSeries.X ^ off * residueSeries p) =
      (shifted off p k : ZMod 9829) := by
  rw [PowerSeries.coeff_X_pow_mul', coeff_residueSeries, shifted]
  split <;> simp

theorem coeff_residueSeries_mul (f g : List Word) (k : Nat) :
    PowerSeries.coeff k (residueSeries f * residueSeries g) = (convCoeff f g k : ZMod 9829) := by
  rw [PowerSeries.coeff_mul, Finset.Nat.sum_antidiagonal_eq_sum_range_succ fun i j =>
    PowerSeries.coeff i (residueSeries f) * PowerSeries.coeff j (residueSeries g), convCoeff]
  simp

/-- A sequence computes a convolution modulo 9829 when its series is the product of the series of
the operands. -/
theorem residueSeries_eq_mul_iff {p f g : List Word} :
    residueSeries p = residueSeries f * residueSeries g ↔
      ∀ k, elemInt p k % 9829 = convCoeff f g k % 9829 := by
  simp only [PowerSeries.ext_iff, coeff_residueSeries, coeff_residueSeries_mul,
    ZMod.intCast_eq_intCast_iff', Nat.cast_ofNat]

theorem residueSeries_seqAdd {a b : List Word} (hlen : a.length = b.length) :
    residueSeries (seqAdd a b) = residueSeries a + residueSeries b := by
  ext k
  simp only [map_add, coeff_residueSeries, elemInt_seqAdd hlen]
  exact (ZMod.intCast_mod _ 9829).trans (Int.cast_add ..)

theorem residueSeries_negatedSum {a b : List Word} (hlen : a.length = b.length) :
    residueSeries (negatedSum a b) = -(residueSeries a + residueSeries b) := by
  ext k
  simp only [← residueSeries_seqAdd hlen, map_neg, coeff_residueSeries, negatedSum,
    elemInt_seqScale, neg_one_mul]
  exact (ZMod.intCast_mod _ 9829).trans (Int.cast_neg _)

theorem elemInt_eq_take_add_drop (f : List Word) (n k : Nat) :
    elemInt f k = elemInt (f.take n) k + shifted n (f.drop n) k := by
  obtain hk | hk := lt_or_ge k n
  · rw [shifted_of_lt hk, add_zero]
    simp [elemInt, elem, List.getElem?_take_of_lt hk]
  · rw [elemInt_of_ge (f := f.take n) (by rw [List.length_take]; omega), zero_add, shifted_of_le hk]
    simp [elemInt, elem, Nat.add_sub_cancel' hk]

theorem residueSeries_take_drop (f : List Word) (n : Nat) :
    residueSeries f =
      residueSeries (f.take n) + PowerSeries.X ^ n * residueSeries (f.drop n) := by
  ext k
  rw [map_add, coeff_X_pow_mul_residueSeries, coeff_residueSeries, coeff_residueSeries,
    ← Int.cast_add, ← elemInt_eq_take_add_drop]

theorem residueSeries_recombine {len : Nat} {a b c : List Word} {u : Int}
    (ha : WordsWithin (2 * len) u a) (hb : WordsWithin (2 * len) u b)
    (hc : WordsWithin (2 * len) u c) (hfits : 3 * u + 9828 < 2147483648) :
    residueSeries (recombine len a b c) =
      residueSeries a + PowerSeries.X ^ (2 * len) * residueSeries b +
        PowerSeries.X ^ len * (residueSeries c - residueSeries a - residueSeries b) := by
  have hparts : residueSeries (recombine len a b c) =
      PowerSeries.X ^ 0 * residueSeries a + PowerSeries.X ^ (2 * len) * residueSeries b +
        PowerSeries.X ^ len * residueSeries (negatedSum a b) +
          PowerSeries.X ^ len * residueSeries c := by
    ext k
    simp only [map_add, coeff_X_pow_mul_residueSeries, coeff_residueSeries,
      elemInt_recombine_eq_sum_shifted ha hb hc hfits, Int.cast_add]
  rw [hparts, residueSeries_negatedSum (ha.length.trans hb.length.symm)]
  ring

/-! ### The levels (43_karatsuba.md R140, R144) -/

/-- What level `v` of the tree gives for the operands `f` and `g`: words within the bound of the
level, the last one 0, that compute the convolution modulo 9829. -/
structure IsLevelProduct (v : Nat) (f g p : List Word) : Prop where
  within : WordsWithin (2 * levelLen v) (levelBound v) p
  last : elemInt p (2 * levelLen v - 1) = 0
  convolves : residueSeries p = residueSeries f * residueSeries g

theorem levelLen_pos (v : Nat) : 0 < levelLen v := by simp [levelLen]

theorem levelBound_range : ∀ v ≤ 5, 0 ≤ levelBound v ∧ levelBound v ≤ 1562652 := by decide

/-- The four accumulations of the next level stay below 2^31 (43_karatsuba.md R144). -/
theorem levelBound_fits {v : Nat} (hv : v < 5) : 3 * levelBound v + 9828 < 2147483648 := by
  have ⟨_, _⟩ := levelBound_range v hv.le
  omega

/-- Past the last pair of elements the convolution is 0. -/
theorem convCoeff_of_ge {f g : List Word} {k : Nat} (h : f.length + g.length ≤ k) :
    convCoeff f g k = 0 := by
  refine Finset.sum_eq_zero fun i _ => ?_
  obtain hi | hj : f.length ≤ i ∨ g.length ≤ k - i := by omega
  · rw [elemInt_of_ge hi, zero_mul]
  · rw [elemInt_of_ge hj, mul_zero]

/-- The base multiplier is level 0 (42_schoolbook.md R130, R132). -/
theorem isLevelProduct_conv4 {f g : List Word} (hflen : f.length = 4) (hglen : g.length = 4) :
    IsLevelProduct 0 f g (conv4 (fun _ _ x => residue x) f g) := by
  have hreduces (k : Nat) : ReducesDiagonal (fun _ _ x => residue x) f g k := fun _ _ => rfl
  have hbeyond {k : Nat} (hk : 8 ≤ k) : elemInt (conv4 (fun _ _ x => residue x) f g) k = 0 :=
    elemInt_of_ge (by rwa [conv4_length])
  refine ⟨⟨conv4_length .., fun k => ?range⟩, ?last, residueSeries_eq_mul_iff.mpr fun k => ?conv⟩
  case range =>
    rw [levelBound]
    obtain hk | hk := lt_or_ge k 8
    · have ⟨_, _⟩ := elemInt_conv4_range hk (hreduces k)
      omega
    · rw [hbeyond hk]
      decide
  case last =>
    have ⟨h0, hle⟩ := elemInt_conv4_range (k := 7) (by decide) (hreduces 7)
    exact le_antisymm hle h0
  case conv =>
    obtain hk | hk := lt_or_ge k 8
    · exact elemInt_conv4_emod hk (hreduces k) hflen.le hglen.le
    · rw [hbeyond hk, convCoeff_of_ge (by omega)]

/-- The operands of the three products have the length of the level below. -/
theorem halves_length {v : Nat} {f : List Word} (h : f.length = levelLen (v + 1)) :
    (f.take (levelLen v)).length = levelLen v ∧ (f.drop (levelLen v)).length = levelLen v ∧
      (seqAdd (f.take (levelLen v)) (f.drop (levelLen v))).length = levelLen v := by
  rw [levelLen_succ] at h
  simp only [seqAdd_length, List.length_take, List.length_drop]
  omega

section
variable {v : Nat} {f g a b c : List Word} (hv : v < 5) (hflen : f.length = levelLen (v + 1))
  (hglen : g.length = levelLen (v + 1))
  (ha : IsLevelProduct v (f.take (levelLen v)) (g.take (levelLen v)) a)
  (hb : IsLevelProduct v (f.drop (levelLen v)) (g.drop (levelLen v)) b)
  (hc : IsLevelProduct v (seqAdd (f.take (levelLen v)) (f.drop (levelLen v)))
    (seqAdd (g.take (levelLen v)) (g.drop (levelLen v))) c)
include hv hflen hglen ha hb hc

/-- The Karatsuba identity (43_karatsuba.md R141): three products of the halves give the product one
level up. -/
theorem IsLevelProduct.recombine : IsLevelProduct (v + 1) f g (recombine (levelLen v) a b c) := by
  have hfits := levelBound_fits hv
  have hlen : 2 * levelLen (v + 1) = 4 * levelLen v := by rw [levelLen_succ]; ring
  refine ⟨?within, ?last, ?convolves⟩
  case within =>
    rw [hlen, levelBound]
    exact wordsWithin_recombine ha.within hb.within hc.within hfits
  case last =>
    rw [hlen, elemInt_recombine ha.within hb.within hc.within hfits,
      levelWord_last (levelLen_pos v), hb.last]
  case convolves =>
    obtain ⟨hf0, hf1, -⟩ := halves_length hflen
    obtain ⟨hg0, hg1, -⟩ := halves_length hglen
    rw [residueSeries_recombine ha.within hb.within hc.within hfits, ha.convolves, hb.convolves,
      hc.convolves, residueSeries_seqAdd (hf0.trans hf1.symm),
      residueSeries_seqAdd (hg0.trans hg1.symm), residueSeries_take_drop f (levelLen v),
      residueSeries_take_drop g (levelLen v)]
    ring

end

theorem kmul_succ (v : Nat) (f g : List Word) :
    kmul (v + 1) f g = recombine (levelLen v)
      (kmul v (f.take (levelLen v)) (g.take (levelLen v)))
      (kmul v (f.drop (levelLen v)) (g.drop (levelLen v)))
      (kmul v (seqAdd (f.take (levelLen v)) (f.drop (levelLen v)))
        (seqAdd (g.take (levelLen v)) (g.drop (levelLen v)))) := rfl

/-- Every level of the tree, by induction on the level. The operands need not be canonical here:
inside the tree a product is replaced by its residue without a test of the domain (log 7), and only
the commands ask for canonical operands (43_karatsuba.md R150). -/
theorem kmul_isLevelProduct {v : Nat} (hv : v ≤ 5) {f g : List Word}
    (hflen : f.length = levelLen v) (hglen : g.length = levelLen v) :
    IsLevelProduct v f g (kmul v f g) := by
  induction v generalizing f g with
  | zero => exact isLevelProduct_conv4 hflen hglen
  | succ v ih =>
    obtain ⟨hf0, hf1, hfs⟩ := halves_length hflen
    obtain ⟨hg0, hg1, hgs⟩ := halves_length hglen
    have hv' : v ≤ 5 := by omega
    exact IsLevelProduct.recombine hv hflen hglen (ih hv' hf0 hg0) (ih hv' hf1 hg1) (ih hv' hfs hgs)

/-- Settles O40: the recombination of the three products is exact, hence the closed form; the sign
and the last word are those of the products of this level and of the level below. -/
theorem karatsubaClosedForm : Obligations.KaratsubaClosedForm := by
  intro v f g a b c hv _ _ hflen hglen ha hb hc k _
  obtain ⟨hf0, hf1, hfs⟩ := halves_length hflen
  obtain ⟨hg0, hg1, hgs⟩ := halves_length hglen
  have hA := ha ▸ kmul_isLevelProduct hv.le hf0 hg0
  have hB := hb ▸ kmul_isLevelProduct hv.le hf1 hg1
  have hC := hc ▸ kmul_isLevelProduct hv.le hfs hgs
  have hout := kmul_isLevelProduct hv hflen hglen
  have hword : elemInt (kmul (v + 1) f g) k = levelWord (levelLen v) a b c k := by
    rw [kmul_succ, ← ha, ← hb, ← hc]
    exact elemInt_recombine hA.within hB.within hC.within (levelBound_fits hv) k
  have ⟨hnonneg, _⟩ := hout.within.range k
  have hlast := hout.last
  rw [levelLen_succ, ← mul_assoc] at hlast
  exact ⟨hword, hnonneg, hlast, hB.last⟩

/-- Settles O41: every level gives words within its bound, and the bounds are numbers. -/
theorem karatsubaBounds : Obligations.KaratsubaBounds := by
  refine ⟨by decide, fun v hv => ?domain, fun v f g hv _ _ hflen hglen => ?words⟩
  case domain =>
    have ⟨_, _⟩ := levelBound_range v hv
    simp only [InDomain, Config.rbound_eq]
    omega
  case words =>
    have hproduct := kmul_isLevelProduct hv hflen hglen
    exact ⟨hproduct.within.length, hproduct.within.range, hproduct.last⟩

/-- Settles O42: at every level the series of the output is the product of the operands' series. -/
theorem karatsubaConvolves : Obligations.KaratsubaConvolves :=
  fun _ _ _ hv _ _ hflen hglen k _ =>
    residueSeries_eq_mul_iff.mp (kmul_isLevelProduct hv hflen hglen).convolves k

/-! ### The commands `KMUL8` to `KMUL128` (43_karatsuba.md R145 to R149) -/

/-- For canonical operands the destination of a Karatsuba command holds the raw words of its
level, computed from the snapshot of its operands (20_memory.md R49). -/
theorem memRead_karatsuba {s : State} {v : Nat} (dst : Addr) {src1 src2 : Addr}
    (hf : AllCanonical (s.memRead src1.toNat (levelLen v)))
    (hg : AllCanonical (s.memRead src2.toNat (levelLen v))) :
    (s.karatsuba v dst src1 src2).memRead dst.toNat (2 * levelLen v) =
      kmul v (s.memRead src1.toNat (levelLen v)) (s.memRead src2.toNat (levelLen v)) := by
  rw [State.karatsuba, if_pos ⟨hf, hg⟩, ← kmul_length v _ _ (State.memRead_length s src1.toNat _)
    (State.memRead_length s src2.toNat _), State.memRead_composite]

/-- A command of format `M` that has the effect of level `v` on the ranges of level `v` is a
Karatsuba command. -/
theorem runsKaratsuba_of_effect {command : Addr → Addr → Addr → Instr} {v : Nat}
    (hlen : ∀ d a b, lenOk (command d a b) = true)
    (hdst : ∀ d a b, dstRange (command d a b) = ⟨d.toNat, 2 * levelLen v⟩)
    (hsrc : ∀ d a b, srcRanges (command d a b) = [⟨a.toNat, levelLen v⟩, ⟨b.toNat, levelLen v⟩])
    (heffect : ∀ d a b s, exec (command d a b) s =
      .next (s.guarded (command d a b) (s.karatsuba v d a b))) :
    RunsKaratsuba command v := by
  intro dst src1 src2 s hd ha hb
  have hok : (command dst src1 src2).WellFormed := by
    simp [Instr.WellFormed, rangesOk, hlen, hdst, hsrc, hd, ha, hb]
  have hexec := heffect dst src1 src2 s
  rw [State.guarded_ok hok] at hexec
  exact ⟨_, hexec, memRead_karatsuba dst, hdst dst src1 src2 ▸ exec_frame hok hexec⟩

/-- Settles O43: the five commands have the sizes of their levels and differ in the level alone
(43_karatsuba.md R151). -/
theorem karatsubaCommandsRun : Obligations.KaratsubaCommandsRun := by
  refine ⟨?kmul8, ?kmul16, ?kmul32, ?kmul64, ?kmul128, rfl, rfl, rfl, rfl, rfl⟩
  all_goals
    exact runsKaratsuba_of_effect (fun _ _ _ => rfl) (fun _ _ _ => rfl) (fun _ _ _ => rfl)
      fun _ _ _ _ => rfl

end Sys2Proof

/-! The Toom-6 evaluator (44_toom6_eval.md): an operand at a point, its value and its bound (R162,
R163), the canonical product at each point (R164), and the command `T6EVAL` (R165). -/

namespace Sys2Proof

open Sys2Proof.Machine

/-! ### The weighted sum at a computed point (44_toom6_eval.md R162) -/

/-- The weights of a finite point are its powers: the weighted sum is the block polynomial of the
operand evaluated at the point (44_toom6_eval.md R161). -/
theorem weightedSum_eq_sum_pow {e : Nat} (he : e < 10) (f : List Word) (i : Nat) :
    weightedSum e f i = ∑ b ∈ Finset.range 6, finitePoint e ^ b * elemInt f (128 * b + i) := by
  have hweights : weightedSum e f i =
      ∑ b ∈ Finset.range 6, evt e b * elemInt f (128 * b + i) := rfl
  rw [hweights]
  exact Finset.sum_congr rfl fun b hb => by rw [evt_finite e he b (Finset.mem_range.mp hb)]

/-- No row of `EVT` for a finite point weighs more than the row of +5 (10_state.md R26). -/
theorem sum_abs_finitePoint_pow_le :
    ∀ e < 10, ∑ b ∈ Finset.range 6, |finitePoint e| ^ b ≤ 3906 := by decide

/-- For a canonical operand the weighted sum is at most 3906 times the largest canonical word. -/
theorem abs_weightedSum_le {e : Nat} (he : e < 10) {f : List Word} (hf : AllCanonical f) (i : Nat) :
    |weightedSum e f i| ≤ 38388168 := by
  rw [weightedSum_eq_sum_pow he]
  calc |∑ b ∈ Finset.range 6, finitePoint e ^ b * elemInt f (128 * b + i)|
      ≤ ∑ b ∈ Finset.range 6, |finitePoint e ^ b * elemInt f (128 * b + i)| :=
        Finset.abs_sum_le_sum_abs ..
    _ ≤ ∑ b ∈ Finset.range 6, |finitePoint e| ^ b * 9828 := Finset.sum_le_sum fun b _ => by
        obtain ⟨h0, hle⟩ := elemInt_canonical hf (128 * b + i)
        rw [abs_mul, abs_pow, abs_of_nonneg h0]
        exact mul_le_mul_of_nonneg_left hle (by positivity)
    _ = (∑ b ∈ Finset.range 6, |finitePoint e| ^ b) * 9828 := (Finset.sum_mul ..).symm
    _ ≤ 3906 * 9828 :=
        mul_le_mul_of_nonneg_right (sum_abs_finitePoint_pow_le e he) (by decide)

/-! ### An operand at a point (44_toom6_eval.md R162, R163) -/

theorem elem_block (b : Nat) (f : List Word) {i : Nat} (hi : i < 128) :
    elem (block b f) i = elem f (128 * b + i) := by
  simp [elem, block, List.getElem?_take_of_lt hi]

theorem elem_atPoint_zero (f : List Word) {i : Nat} (hi : i < 128) :
    elem (atPoint 0 f) i = elem f i := by
  rw [atPoint, if_pos rfl, elem_block 0 f hi, mul_zero, zero_add]

theorem elem_atPoint_infinity (f : List Word) {i : Nat} (hi : i < 128) :
    elem (atPoint 10 f) i = elem f (640 + i) :=
  elem_block 5 f hi

theorem elemInt_atPoint_computed {e : Nat} (he1 : 1 ≤ e) (he9 : e ≤ 9) (f : List Word) {i : Nat}
    (hi : i < 128) : elemInt (atPoint e f) i = weightedSum e f i % 9829 := by
  rw [atPoint, if_neg (by omega), if_neg (by omega), elemInt, elem_map_range 128 _ hi,
    residue_toInt]

/-- Settles O45: the nine computed points by their weighted sums, the two limit points by their
blocks. -/
theorem operandAtPoint : Obligations.OperandAtPoint := by
  intro f hf _
  refine ⟨fun e he1 he9 i hi => ?computed, fun i hi => ?limits⟩
  case computed =>
    have he : e < 10 := by omega
    rw [← weightedSum_eq_sum_pow he]
    exact ⟨abs_weightedSum_le he hf i, elemInt_atPoint_computed he1 he9 f hi⟩
  case limits => exact ⟨elem_atPoint_zero f hi, elem_atPoint_infinity f hi⟩

/-! ### The product at a point (44_toom6_eval.md R164) -/

/-- Freezing a sequence is scaling it by 1 (40_reduction.md R97; 41_primitives.md R115). -/
theorem seqFreeze_eq_seqScale_one (a : List Word) : seqFreeze a = seqScale 1 a := by
  simp only [seqFreeze, seqScale, one_mul]

theorem elemInt_seqFreeze (a : List Word) (k : Nat) :
    elemInt (seqFreeze a) k = elemInt a k % 9829 := by
  rw [seqFreeze_eq_seqScale_one, elemInt_seqScale, one_mul]

section
variable {f g : List Word} (hf : f.length = 768) (hg : g.length = 768)
include hf hg

/-- The top Karatsuba level gives the convolution modulo 9829 (43_karatsuba.md R140), and freezing
its raw words makes them canonical. -/
theorem elemInt_evalResult (e k : Nat) :
    elemInt (evalResult e f g) k = convCoeff (atPoint e f) (atPoint e g) k % 9829 := by
  have hproduct := kmul_isLevelProduct (v := 5) le_rfl (atPoint_length (e := e) hf)
    (atPoint_length (e := e) hg)
  rw [evalResult, elemInt_seqFreeze, residueSeries_eq_mul_iff.mp hproduct.convolves k]

/-- The result of point `e` stands at offset `256e` (44_toom6_eval.md R165). -/
theorem elemInt_t6eval {e k : Nat} (he : e < 11) (hk : k < 256) :
    elemInt (t6eval f g) (256 * e + k) = convCoeff (atPoint e f) (atPoint e g) k % 9829 := by
  have hblock : elem (t6eval f g) (256 * e + k) = elem (evalResult e f g) k :=
    elem_flatMap_range 11 256 _ (fun _ _ => evalResult_length hf hg) he hk
  rw [elemInt, hblock, ← elemInt, elemInt_evalResult hf hg]

end

/-! ### The command `T6EVAL` (44_toom6_eval.md R165) -/

theorem wellFormed_t6eval {dst src1 src2 : Addr} :
    (Instr.t6eval dst src1 src2).WellFormed ↔
      dst.toNat + 2816 ≤ 8192 ∧ src1.toNat + 768 ≤ 8192 ∧ src2.toNat + 768 ≤ 8192 := by
  simp [Instr.WellFormed, rangesOk, lenOk, dstRange, srcRanges]

/-- For canonical operands `T6EVAL` stores the eleven evaluation results, computed from the snapshot
of its operands (20_memory.md R49). -/
theorem exec_t6eval_word {dst src1 src2 : Addr} (h : (Instr.t6eval dst src1 src2).WellFormed)
    (s : State) :
    ∃ t, exec (.t6eval dst src1 src2) s = .next t ∧
      (AllCanonical (s.memRead src1.toNat 768) → AllCanonical (s.memRead src2.toNat 768) →
        ∀ j < 2816, t.readWord (dst.toNat + j) =
          elem (t6eval (s.memRead src1.toNat 768) (s.memRead src2.toNat 768)) j) := by
  refine ⟨_, congrArg Host.Outcome.next (State.guarded_ok h _), fun hf hg j hj => ?_⟩
  rw [if_pos ⟨hf, hg⟩, State.readWord_composite,
    t6eval_length (State.memRead_length ..) (State.memRead_length ..), if_pos (by omega),
    Nat.add_sub_cancel_left]

/-- Settles O46: the words stored are the evaluation results, and each of them is the canonical
product at its point. -/
theorem t6evalStoresPointProducts : Obligations.T6evalStoresPointProducts := by
  intro dst src1 src2 s hdst hsrc1 hsrc2
  have hok := wellFormed_t6eval.mpr ⟨hdst, hsrc1, hsrc2⟩
  obtain ⟨t, hexec, hword⟩ := exec_t6eval_word hok s
  refine ⟨t, hexec, fun hf hg e he k hk => ?_, exec_frame hok hexec⟩
  rw [add_assoc, hword hf hg (256 * e + k) (by omega), ← elemInt]
  exact elemInt_t6eval (State.memRead_length ..) (State.memRead_length ..) he hk

end Sys2Proof

/-! The Toom-6 interpolator and reconstruction (45_toom6_interp.md): the linear combination that
gives each coefficient block (R180, R181) and the command `T6INTERP` (R183), the overlap-add of the
blocks (R185) and the command `T6RECON` (R186). -/

namespace Sys2Proof

open Sys2Proof.Machine

/-! ### The blocks of an operand (45_toom6_interp.md R183, R186) -/

theorem blockElem_memRead (s : State) (a : Nat) {k i : Nat} (hk : k < 11) (hi : i < 256) :
    blockElem (s.memRead a 2816) k i = s.readWord (a + 256 * k + i) := by
  rw [blockElem, State.elem_memRead _ _ _ _ (by omega), add_assoc]

theorem allCanonical_column {blocks : List Word} {i : Nat}
    (h : ∀ e < 11, Canonical (blockElem blocks e i)) : AllCanonical (column blocks i) :=
  (allCanonical_iff _).mpr (List.forall_mem_map.mpr fun e he => h e (List.mem_range.mp he))

theorem elemInt_column (blocks : List Word) (i : Nat) {e : Nat} (he : e < 11) :
    elemInt (column blocks i) e = (blockElem blocks e i).toInt := by
  rw [elemInt, column, elem_map_range Config.npts _ he]

/-! ### The linear combination of a column (45_toom6_interp.md R180, R181) -/

/-- Reducing each product and then the sum of the residues gives the residue of the sum. -/
theorem interpWord_toInt (k : Nat) (col : List Word) :
    (interpWord k col).toInt = (∑ e ∈ Finset.range 11, imx k e * elemInt col e) % 9829 := by
  have hsum : (interpWord k col).toInt =
      (∑ e ∈ Finset.range 11, (residue (imx k e * elemInt col e)).toInt) % 9829 :=
    residue_toInt _
  rw [hsum, Finset.sum_congr rfl fun e _ => residue_toInt (imx k e * elemInt col e)]
  exact (Finset.sum_int_mod _ 9829 _).symm

/-! ### The coefficient blocks (45_toom6_interp.md R183) -/

section
variable (free : Nat → Word) (blocks : List Word) {k i : Nat}

/-- Coefficient block `k` stands at offset `256k`. -/
theorem elem_t6interp (hk : k < 11) (hi : i < 256) :
    elem (t6interp free blocks) (256 * k + i) =
      if k = 0 ∨ k = 10 then blockElem blocks k i
      else if AllCanonical (column blocks i) then interpWord k (column blocks i)
      else free (256 * k + i) := by
  rw [t6interp, elem_flatMap_range Config.npts 256 _ (by simp) hk hi, elem_map_range 256 _ hi]

theorem elem_t6interp_edge (hk : k = 0 ∨ k = 10) (hi : i < 256) :
    elem (t6interp free blocks) (256 * k + i) = blockElem blocks k i := by
  rw [elem_t6interp free blocks (by omega) hi, if_pos hk]

theorem elemInt_t6interp_computed (hk1 : 1 ≤ k) (hk9 : k ≤ 9) (hi : i < 256)
    (h : ∀ e < 11, Canonical (blockElem blocks e i)) :
    elemInt (t6interp free blocks) (256 * k + i) =
      (∑ e ∈ Finset.range 11, imx k e * (blockElem blocks e i).toInt) % 9829 := by
  rw [elemInt, elem_t6interp free blocks (by omega) hi, if_neg (by omega),
    if_pos (allCanonical_column h), interpWord_toInt,
    Finset.sum_congr rfl fun e he => by rw [elemInt_column blocks i (Finset.mem_range.mp he)]]

end

/-! ### The command `T6INTERP` (45_toom6_interp.md R183) -/

theorem wellFormed_t6interp {dst src1 : Addr} :
    (Instr.t6interp dst src1).WellFormed ↔
      dst.toNat + 2816 ≤ 8192 ∧ src1.toNat + 2816 ≤ 8192 := by
  simp [Instr.WellFormed, rangesOk, lenOk, dstRange, srcRanges]

/-- `T6INTERP` stores the coefficient blocks, computed from the snapshot of its operand
(20_memory.md R49). -/
theorem exec_t6interp_word {dst src1 : Addr} (h : (Instr.t6interp dst src1).WellFormed)
    (s : State) :
    ∃ t, exec (.t6interp dst src1) s = .next t ∧ ∀ k < 11, ∀ i < 256,
      t.readWord (dst.toNat + 256 * k + i) =
        elem (t6interp s.unspec (s.memRead src1.toNat 2816)) (256 * k + i) := by
  refine ⟨_, congrArg Host.Outcome.next (State.guarded_ok h _), fun k hk i hi => ?_⟩
  rw [add_assoc, State.readWord_composite, t6interp_length, if_pos (by omega),
    Nat.add_sub_cancel_left]

/-- Settles O48: the first and last block by the verbatim case of `t6interp`, the others by its
computed case. -/
theorem t6interpCombinesColumns : Obligations.T6interpCombinesColumns := by
  intro dst src1 s hdst hsrc1
  have hok := wellFormed_t6interp.mpr ⟨hdst, hsrc1⟩
  obtain ⟨t, hexec, hword⟩ := exec_t6interp_word hok s
  have hedge : ∀ k, k = 0 ∨ k = 10 → ∀ i < 256,
      t.readWord (dst.toNat + 256 * k + i) = s.readWord (src1.toNat + 256 * k + i) := by
    intro k hk i hi
    rw [hword k (by omega) i hi, elem_t6interp_edge _ _ hk hi,
      blockElem_memRead s _ (by omega) hi]
  refine ⟨t, hexec, fun i hi => ⟨hedge 0 (.inl rfl) i hi, hedge 10 (.inr rfl) i hi,
    fun hcanonical k hk1 hk9 => ?computed⟩, exec_frame hok hexec⟩
  case computed =>
    have hblocks : ∀ e < 11, blockElem (s.memRead src1.toNat 2816) e i =
        s.readWord (src1.toNat + 256 * e + i) := fun e he => blockElem_memRead s _ he hi
    rw [hword k (by omega) i hi, ← elemInt, elemInt_t6interp_computed _ _ hk1 hk9 hi
      fun e he => by rw [hblocks e he]; exact hcanonical e he]
    exact congrArg (· % 9829)
      (Finset.sum_congr rfl fun e he => by rw [hblocks e (Finset.mem_range.mp he)])

/-! ### The overlap-add of the blocks (45_toom6_interp.md R185) -/

theorem elem_append_of_lt {a b : List Word} {i : Nat} (h : i < a.length) :
    elem (a ++ b) i = elem a i :=
  List.getD_append _ _ _ _ h

theorem elem_append_length_add {a b : List Word} {n : Nat} (h : a.length = n) (i : Nat) :
    elem (a ++ b) (n + i) = elem b i := by
  rw [elem, List.getD_append_right _ _ _ _ (by omega), h, Nat.add_sub_cancel_left, elem]

section
variable (free : Nat → Word) (blocks : List Word) {j : Nat} (hj : j < 128)
include hj

/-- The first segment is the lower half of block 0. -/
theorem elem_t6recon_first : elem (t6recon free blocks) j = blockElem blocks 0 j := by
  rw [t6recon, List.append_assoc, elem_append_of_lt (by simpa), elem_map_range 128 _ hj]

/-- The last segment is the upper half of block 10. -/
theorem elem_t6recon_last :
    elem (t6recon free blocks) (1408 + j) = blockElem blocks 10 (128 + j) := by
  rw [t6recon, elem_append_length_add (n := 1408), elem_map_range 128 _ hj]
  rw [List.length_append, length_flatMap_range 10 128 _ (by simp)]
  simp

/-- Segment `r + 1` adds the lower half of block `r + 1` and the upper half of block `r`. -/
theorem elem_t6recon_interior {r : Nat} (hr : r < 10) :
    elem (t6recon free blocks) (128 * (r + 1) + j) =
      reduce (free (128 * (r + 1) + j))
        ((blockElem blocks (r + 1) j).toInt + (blockElem blocks r (128 + j)).toInt) := by
  have hindex : 128 * (r + 1) + j = 128 + (128 * r + j) := by ring
  conv_lhs => rw [hindex, t6recon, List.append_assoc, elem_append_length_add (by simp)]
  rw [elem_append_of_lt (by rw [length_flatMap_range 10 128 _ (by simp)]; omega),
    elem_flatMap_range 10 128 _ (by simp) hr hj, elem_map_range 128 _ hj]

end

/-! ### The command `T6RECON` (45_toom6_interp.md R186) -/

theorem wellFormed_t6recon {dst src1 : Addr} :
    (Instr.t6recon dst src1).WellFormed ↔
      dst.toNat + 1536 ≤ 8192 ∧ src1.toNat + 2816 ≤ 8192 := by
  simp [Instr.WellFormed, rangesOk, lenOk, dstRange, srcRanges]

/-- `T6RECON` stores the overlap-added blocks, computed from the snapshot of its operand
(20_memory.md R49). -/
theorem exec_t6recon_word {dst src1 : Addr} (h : (Instr.t6recon dst src1).WellFormed)
    (s : State) :
    ∃ t, exec (.t6recon dst src1) s = .next t ∧ ∀ k < 1536, t.readWord (dst.toNat + k) =
      elem (t6recon s.unspec (s.memRead src1.toNat 2816)) k := by
  refine ⟨_, congrArg Host.Outcome.next (State.guarded_ok h _), fun k hk => ?_⟩
  rw [State.readWord_composite, t6recon_length, if_pos (by omega), Nat.add_sub_cancel_left]

/-- Settles O49, segment by segment: the first, the last, and the ten that overlap. -/
theorem t6reconOverlapAdds : Obligations.T6reconOverlapAdds := by
  intro dst src1 s hdst hsrc1
  have hok := wellFormed_t6recon.mpr ⟨hdst, hsrc1⟩
  obtain ⟨t, hexec, hword⟩ := exec_t6recon_word hok s
  refine ⟨t, hexec, fun j hj => ⟨?first, ?last, fun r hr1 hr10 hdom => ?interior⟩,
    exec_frame hok hexec⟩
  case first =>
    rw [hword j (by omega), elem_t6recon_first _ _ hj, blockElem_memRead s _ (by omega) (by omega),
      mul_zero, add_zero]
  case last =>
    rw [add_assoc, hword (1408 + j) (by omega), elem_t6recon_last _ _ hj,
      blockElem_memRead s _ (by omega) (by omega), ← add_assoc]
  case interior =>
    obtain ⟨r, rfl⟩ := Nat.exists_eq_add_of_le' hr1
    rw [Nat.add_sub_cancel, add_assoc _ 128 j] at hdom ⊢
    rw [add_assoc dst.toNat, hword _ (by omega), elem_t6recon_interior _ _ hj (by omega),
      blockElem_memRead s _ (by omega) (by omega), blockElem_memRead s _ (by omega) (by omega),
      reduce_toInt _ hdom]

end Sys2Proof

/-! The top-level multiplier (46_top.md): the product of two operands as a polynomial in their
blocks (44_toom6_eval.md R161), what each Toom-6 stage does to it, the command `MUL768` (R200,
R201), its laws (R202), and the four stages through PMEM (R201). -/

namespace Sys2Proof

open Sys2Proof.Machine

/-! ### Sequences cut into segments -/

/-- Segment `r` of a sequence cut into segments of length `n`. -/
def segment (n r : Nat) (f : List Word) : List Word := (f.drop (n * r)).take n

theorem block_eq_segment (b : Nat) (f : List Word) : block b f = segment 128 b f := rfl

theorem elemInt_segment (f : List Word) (n r : Nat) {i : Nat} (hi : i < n) :
    elemInt (segment n r f) i = elemInt f (n * r + i) := by
  simp [elemInt, elem, segment, List.getElem?_take_of_lt hi]

theorem elemInt_segment_of_ge (f : List Word) {n i : Nat} (r : Nat) (hi : n ≤ i) :
    elemInt (segment n r f) i = 0 :=
  elemInt_of_ge ((List.length_take_le ..).trans hi)

/-- The series of a segment is known from the elements of the segment. -/
theorem residueSeries_segment_eq {f : List Word} {n r : Nat} {φ : PowerSeries (ZMod 9829)}
    (hinside : ∀ i < n, (elemInt f (n * r + i) : ZMod 9829) = PowerSeries.coeff i φ)
    (hbeyond : ∀ i, n ≤ i → PowerSeries.coeff i φ = 0) :
    residueSeries (segment n r f) = φ := by
  ext i
  rw [coeff_residueSeries]
  obtain hi | hi := lt_or_ge i n
  · rw [elemInt_segment f n r hi, hinside i hi]
  · rw [elemInt_segment_of_ge f r hi, hbeyond i hi, Int.cast_zero]

theorem coeff_residueSeries_segment_of_ge (f : List Word) {n i : Nat} (r : Nat) (hi : n ≤ i) :
    PowerSeries.coeff i (residueSeries (segment n r f)) = 0 := by
  rw [coeff_residueSeries, elemInt_segment_of_ge f r hi, Int.cast_zero]

theorem residueSeries_segment_congr {f g : List Word} {n r r' : Nat}
    (h : ∀ i < n, elem f (n * r + i) = elem g (n * r' + i)) :
    residueSeries (segment n r f) = residueSeries (segment n r' g) :=
  residueSeries_segment_eq
    (fun i hi => by
      rw [coeff_residueSeries, elemInt_segment g n r' hi, elemInt, elemInt, h i hi])
    fun _ => coeff_residueSeries_segment_of_ge g r'

/-- The first `m` segments and what follows them. -/
theorem residueSeries_eq_sum_segments_add (f : List Word) (n m : Nat) :
    residueSeries f =
      ∑ r ∈ Finset.range m, PowerSeries.X ^ (n * r) * residueSeries (segment n r f) +
        PowerSeries.X ^ (n * m) * residueSeries (f.drop (n * m)) := by
  induction m with
  | zero => simp
  | succ m ih =>
    rw [ih, Finset.sum_range_succ, residueSeries_take_drop (f.drop (n * m)) n, List.drop_drop,
      ← Nat.mul_succ, segment]
    ring

theorem residueSeries_of_length_zero {f : List Word} (h : f.length = 0) : residueSeries f = 0 := by
  ext i
  simp [elemInt_of_ge (f := f) (i := i) (by omega)]

theorem residueSeries_eq_sum_segments {f : List Word} {n m : Nat} (h : f.length = n * m) :
    residueSeries f =
      ∑ r ∈ Finset.range m, PowerSeries.X ^ (n * r) * residueSeries (segment n r f) := by
  rw [residueSeries_eq_sum_segments_add f n m, residueSeries_of_length_zero (by simp [h]),
    mul_zero, add_zero]

/-- A segment of even length is its lower half followed by its upper half. -/
theorem residueSeries_segment_two_mul (f : List Word) (n r : Nat) :
    residueSeries (segment (2 * n) r f) =
      residueSeries (segment n (2 * r) f) +
        PowerSeries.X ^ n * residueSeries (segment n (2 * r + 1) f) := by
  have hlow : (segment (2 * n) r f).take n = segment n (2 * r) f := by
    rw [segment, segment, List.take_take, min_eq_left (by omega),
      show 2 * n * r = n * (2 * r) by ring]
  have hhigh : (segment (2 * n) r f).drop n = segment n (2 * r + 1) f := by
    rw [segment, segment, List.drop_take, List.drop_drop, show 2 * n - n = n by omega,
      show 2 * n * r + n = n * (2 * r + 1) by ring]
  rw [residueSeries_take_drop (segment (2 * n) r f) n, hlow, hhigh]

/-! ### The block polynomial of an operand (44_toom6_eval.md R161) -/

theorem coeff_intCast_mul (c : Int) (φ : PowerSeries (ZMod 9829)) (i : Nat) :
    PowerSeries.coeff i ((c : PowerSeries (ZMod 9829)) * φ) = c * PowerSeries.coeff i φ := by
  rw [← map_intCast (PowerSeries.C (R := ZMod 9829)), PowerSeries.coeff_C_mul]

/-- The polynomial whose coefficients are the series of the six blocks of an operand. -/
noncomputable def blockPoly (f : List Word) : Polynomial (PowerSeries (ZMod 9829)) :=
  ∑ b ∈ Finset.range 6, Polynomial.C (residueSeries (block b f)) * Polynomial.X ^ b

theorem natDegree_blockPoly_le (f : List Word) : (blockPoly f).natDegree ≤ 5 :=
  Polynomial.natDegree_sum_le_of_forall_le _ _ fun b hb =>
    (Polynomial.natDegree_C_mul_X_pow_le _ b).trans (Finset.mem_range_succ_iff.mp hb)

theorem coeff_blockPoly_five (f : List Word) :
    (blockPoly f).coeff 5 = residueSeries (block 5 f) := by
  simp [blockPoly, Polynomial.finsetSum_coeff]

theorem eval_blockPoly (f : List Word) (x : PowerSeries (ZMod 9829)) :
    (blockPoly f).eval x = ∑ b ∈ Finset.range 6, x ^ b * residueSeries (block b f) := by
  simp only [blockPoly, Polynomial.eval_finsetSum, Polynomial.eval_mul, Polynomial.eval_C,
    Polynomial.eval_pow, Polynomial.eval_X, mul_comm]

/-- At `X ^ 128` the block polynomial puts the blocks back in their places. -/
theorem eval_blockPoly_X_pow {f : List Word} (hf : f.length = 768) :
    (blockPoly f).eval (PowerSeries.X ^ 128) = residueSeries f := by
  rw [eval_blockPoly, residueSeries_eq_sum_segments (n := 128) (m := 6) hf]
  simp only [← pow_mul, block_eq_segment]

/-- The operand at a finite point, the limit point 0 included, modulo 9829
(44_toom6_eval.md R162, R163). -/
theorem intCast_elemInt_atPoint {e : Nat} (he : e < 10) {f : List Word} {i : Nat} (hi : i < 128) :
    (elemInt (atPoint e f) i : ZMod 9829) = (weightedSum e f i : ZMod 9829) := by
  obtain rfl | he1 := Nat.eq_zero_or_pos e
  · have hzero : weightedSum 0 f i = elemInt f i := by
      rw [weightedSum_eq_sum_pow he, Finset.sum_range_succ']
      simp [finitePoint]
    rw [hzero, elemInt, elem_atPoint_zero f hi, elemInt]
  · rw [elemInt_atPoint_computed he1 (by omega) f hi]
    exact ZMod.intCast_mod _ 9829

theorem eval_blockPoly_finitePoint {e : Nat} (he : e < 10) {f : List Word} (hf : f.length = 768) :
    (blockPoly f).eval (finitePoint e : PowerSeries (ZMod 9829)) =
      residueSeries (atPoint e f) := by
  ext i
  simp only [eval_blockPoly, map_sum, ← Int.cast_pow, coeff_intCast_mul, coeff_residueSeries,
    block_eq_segment]
  obtain hi | hi := lt_or_ge i 128
  · rw [intCast_elemInt_atPoint he hi, weightedSum_eq_sum_pow he]
    simp only [elemInt_segment f 128 _ hi, Int.cast_sum, Int.cast_mul]
  · rw [elemInt_of_ge (f := atPoint e f) (by rwa [atPoint_length hf])]
    simp only [elemInt_segment_of_ge f _ hi, Int.cast_zero, mul_zero, Finset.sum_const_zero]

/-! ### The evaluation stage as the evaluation matrix (10_state.md R27; 44_toom6_eval.md R164) -/

theorem natDegree_blockPoly_mul_lt (f g : List Word) : (blockPoly f * blockPoly g).natDegree < 11 :=
  Nat.lt_succ_of_le
    (Polynomial.natDegree_mul_le_of_le (natDegree_blockPoly_le f) (natDegree_blockPoly_le g))

section
variable {f g : List Word} (hf : f.length = 768) (hg : g.length = 768)
include hf hg

/-- Overlap-adding the coefficients of the product polynomial at a stride of 128 gives the product
of the operands. -/
theorem sum_X_pow_mul_coeff_blockPoly_mul :
    ∑ k ∈ Finset.range 11, PowerSeries.X ^ (128 * k) * (blockPoly f * blockPoly g).coeff k =
      residueSeries f * residueSeries g := by
  rw [← eval_blockPoly_X_pow hf, ← eval_blockPoly_X_pow hg, ← Polynomial.eval_mul,
    Polynomial.eval_eq_sum_range' (natDegree_blockPoly_mul_lt f g)]
  simp only [← pow_mul, mul_comm]

theorem residueSeries_evalResult (e : Nat) :
    residueSeries (evalResult e f g) =
      residueSeries (atPoint e f) * residueSeries (atPoint e g) :=
  residueSeries_eq_mul_iff.mpr fun k => by rw [elemInt_evalResult hf hg, Int.emod_emod]

/-- The evaluation results are the values of the product polynomial at the eleven points. -/
theorem residueSeries_evalResult_eq_sum {e : Nat} (he : e < 11) :
    residueSeries (evalResult e f g) = ∑ k ∈ Finset.range 11,
      (evalMatrix e k : PowerSeries (ZMod 9829)) * (blockPoly f * blockPoly g).coeff k := by
  rw [residueSeries_evalResult hf hg]
  obtain hfinite | rfl : e < 10 ∨ e = 10 := by omega
  · rw [← eval_blockPoly_finitePoint hfinite hf, ← eval_blockPoly_finitePoint hfinite hg,
      ← Polynomial.eval_mul, Polynomial.eval_eq_sum_range' (natDegree_blockPoly_mul_lt f g)]
    refine Finset.sum_congr rfl fun k _ => ?_
    rw [evalMatrix, if_neg (by omega), Int.cast_pow, mul_comm]
  · have hinfinity : (blockPoly f * blockPoly g).coeff 10 =
        residueSeries (atPoint 10 f) * residueSeries (atPoint 10 g) := by
      rw [Polynomial.coeff_mul_add_eq_of_natDegree_le (natDegree_blockPoly_le f)
        (natDegree_blockPoly_le g), coeff_blockPoly_five, coeff_blockPoly_five]
      rfl
    rw [← hinfinity]
    simp [evalMatrix]

end

/-! ### The words between the stages are canonical (45_toom6_interp.md R181, R185) -/

theorem canonical_elem {f : List Word} (h : AllCanonical f) (i : Nat) : Canonical (elem f i) := by
  obtain ⟨h0, hle⟩ := elemInt_canonical h i
  exact ⟨h0, Int.lt_add_one_iff.mpr hle⟩

theorem blockElem_canonical {blocks : List Word} (h : AllCanonical blocks) (k i : Nat) :
    Canonical (blockElem blocks k i) := canonical_elem h _

theorem allCanonical_t6eval (f g : List Word) : AllCanonical (t6eval f g) := by
  simp only [allCanonical_iff, t6eval, List.mem_flatMap]
  rintro w ⟨e, -, hw⟩
  exact (allCanonical_iff _).mp (seqFreeze_canonical _) w hw

theorem allCanonical_t6interp (free : Nat → Word) {blocks : List Word} (h : AllCanonical blocks) :
    AllCanonical (t6interp free blocks) := by
  rw [allCanonical_iff, t6interp]
  simp only [List.mem_flatMap, List.mem_map]
  rintro _ ⟨k, -, i, -, rfl⟩
  split
  · exact blockElem_canonical h k i
  · rw [if_pos (allCanonical_column fun e _ => blockElem_canonical h e i)]
    exact residue_canonical _

/-- The sum of two canonical words is inside the domain of `reduce` (45_toom6_interp.md R185). -/
theorem inDomain_add_of_canonical {x y : Word} (hx : Canonical x) (hy : Canonical y) :
    InDomain (x.toInt + y.toInt) := by
  obtain ⟨hx0, hxq⟩ := hx
  obtain ⟨hy0, hyq⟩ := hy
  simp only [Config.q_eq] at hxq hyq
  simp only [InDomain, Config.rbound_eq]
  omega

theorem allCanonical_t6recon (free : Nat → Word) {blocks : List Word} (h : AllCanonical blocks) :
    AllCanonical (t6recon free blocks) := by
  simp only [allCanonical_iff, t6recon, List.mem_append, List.mem_flatMap, List.mem_map]
  rintro _ ((⟨j, -, rfl⟩ | ⟨r, -, j, -, rfl⟩) | ⟨j, -, rfl⟩)
  · exact blockElem_canonical h ..
  · exact reduce_canonical _
      (inDomain_add_of_canonical (blockElem_canonical h ..) (blockElem_canonical h ..))
  · exact blockElem_canonical h ..

/-! ### The interpolation stage as the inverse matrix (10_state.md R27; 45_toom6_interp.md R180) -/

/-- The entries of a table of integers modulo 9829, as an 11 by 11 matrix. -/
def residueMatrix (entry : Nat → Nat → Int) : Matrix (Fin 11) (Fin 11) (ZMod 9829) :=
  .of fun i j => (entry i j : ZMod 9829)

theorem residueMatrix_evalMatrix_mul_fullImx :
    residueMatrix evalMatrix * residueMatrix fullImx = 1 := by
  ext e c
  obtain ⟨hinverse, -⟩ := interpolationMatrixInverts
  have hentry := hinverse e e.isLt c c.isLt
  rw [Finset.sum_range] at hentry
  have hcast := (ZMod.intCast_eq_intCast_iff' _ (if (e : Nat) = c then 1 else 0) 9829).mpr
    (hentry.trans (by split <;> rfl))
  simpa [residueMatrix, Matrix.mul_apply, Matrix.one_apply, Fin.ext_iff] using hcast

/-- A right inverse of a square matrix is a left inverse, here over the series. -/
theorem sum_fullImx_mul_evalMatrix {k c : Nat} (hk : k < 11) (hc : c < 11) :
    ∑ e ∈ Finset.range 11, (fullImx k e : PowerSeries (ZMod 9829)) * evalMatrix e c =
      if k = c then 1 else 0 := by
  have hinverse := mul_eq_one_comm.mp residueMatrix_evalMatrix_mul_fullImx
  have hentry := congrFun (congrFun hinverse ⟨k, hk⟩) ⟨c, hc⟩
  have hseries := congrArg (PowerSeries.C (R := ZMod 9829)) hentry
  simp only [residueMatrix, Matrix.mul_apply, Matrix.of_apply, Matrix.one_apply, Fin.mk.injEq,
    map_sum, map_mul, map_intCast, apply_ite (PowerSeries.C (R := ZMod 9829)), map_one,
    map_zero] at hseries
  rw [Finset.sum_range, ← hseries]

/-- The unit rows of the full matrix pick the first and the last block. -/
theorem sum_fullImx_edge {k : Nat} (hk : k = 0 ∨ k = 10) (v : Nat → Int) :
    ∑ e ∈ Finset.range 11, fullImx k e * v e = v k := by
  obtain rfl | rfl := hk <;> simp [fullImx]

/-- On canonical words every coefficient block, verbatim or computed, is a row of the full matrix
applied to the columns (45_toom6_interp.md R180, R183). -/
theorem intCast_elemInt_t6interp (free : Nat → Word) {blocks : List Word} (h : AllCanonical blocks)
    {k i : Nat} (hk : k < 11) (hi : i < 256) :
    (elemInt (t6interp free blocks) (256 * k + i) : ZMod 9829) =
      ((∑ e ∈ Finset.range 11, fullImx k e * elemInt blocks (256 * e + i) : Int) : ZMod 9829) := by
  by_cases hedge : k = 0 ∨ k = 10
  · rw [elemInt, elem_t6interp_edge free blocks hedge hi, sum_fullImx_edge hedge, blockElem,
      elemInt]
  · rw [elemInt_t6interp_computed free blocks (by omega) (by omega) hi fun e _ =>
      canonical_elem h (256 * e + i)]
    have hrow (e : Nat) : fullImx k e = imx k e := by
      rw [fullImx, if_neg (by omega), if_neg (by omega)]
    simp only [hrow]
    exact ZMod.intCast_mod _ 9829

theorem residueSeries_segment_t6interp (free : Nat → Word) {blocks : List Word}
    (h : AllCanonical blocks) {k : Nat} (hk : k < 11) :
    residueSeries (segment 256 k (t6interp free blocks)) = ∑ e ∈ Finset.range 11,
      (fullImx k e : PowerSeries (ZMod 9829)) * residueSeries (segment 256 e blocks) := by
  refine residueSeries_segment_eq (fun i hi => ?inside) fun i hi => ?beyond
  case inside =>
    rw [intCast_elemInt_t6interp free h hk hi]
    simp only [map_sum, coeff_intCast_mul, coeff_residueSeries, elemInt_segment blocks 256 _ hi,
      Int.cast_sum, Int.cast_mul]
  case beyond =>
    simp only [map_sum, coeff_intCast_mul, coeff_residueSeries_segment_of_ge blocks _ hi, mul_zero,
      Finset.sum_const_zero]

section
variable {f g : List Word} (hf : f.length = 768) (hg : g.length = 768)
include hf hg

theorem residueSeries_segment_t6eval {e : Nat} (he : e < 11) :
    residueSeries (segment 256 e (t6eval f g)) = residueSeries (evalResult e f g) := by
  refine residueSeries_segment_eq (fun i hi => ?inside) fun i hi => ?beyond
  case inside => rw [elemInt_t6eval hf hg he hi, coeff_residueSeries, elemInt_evalResult hf hg]
  case beyond =>
    rw [coeff_residueSeries, elemInt_of_ge (by rwa [evalResult_length hf hg]), Int.cast_zero]

/-- Interpolation recovers the coefficients of the product polynomial. -/
theorem residueSeries_segment_t6interp_t6eval (free : Nat → Word) {k : Nat} (hk : k < 11) :
    residueSeries (segment 256 k (t6interp free (t6eval f g))) =
      (blockPoly f * blockPoly g).coeff k := by
  calc residueSeries (segment 256 k (t6interp free (t6eval f g)))
      = ∑ e ∈ Finset.range 11, (fullImx k e : PowerSeries (ZMod 9829)) *
          ∑ c ∈ Finset.range 11,
            (evalMatrix e c : PowerSeries (ZMod 9829)) * (blockPoly f * blockPoly g).coeff c := by
        rw [residueSeries_segment_t6interp free (allCanonical_t6eval f g) hk]
        refine Finset.sum_congr rfl fun e he => ?_
        have he := Finset.mem_range.mp he
        rw [residueSeries_segment_t6eval hf hg he, residueSeries_evalResult_eq_sum hf hg he]
    _ = ∑ c ∈ Finset.range 11, (∑ e ∈ Finset.range 11,
          (fullImx k e : PowerSeries (ZMod 9829)) * evalMatrix e c) *
            (blockPoly f * blockPoly g).coeff c := by
        simp only [Finset.mul_sum, Finset.sum_mul, ← mul_assoc]
        exact Finset.sum_comm
    _ = ∑ c ∈ Finset.range 11, if k = c then (blockPoly f * blockPoly g).coeff c else 0 :=
        Finset.sum_congr rfl fun c hc => by
          rw [sum_fullImx_mul_evalMatrix hk (Finset.mem_range.mp hc), ite_mul, one_mul, zero_mul]
    _ = (blockPoly f * blockPoly g).coeff k := by simp [hk]

end

/-! ### The reconstruction stage as an overlap-add of series (45_toom6_interp.md R185) -/

section
variable (free : Nat → Word)

theorem residueSeries_segment_t6recon_first (blocks : List Word) :
    residueSeries (segment 128 0 (t6recon free blocks)) = residueSeries (segment 128 0 blocks) :=
  residueSeries_segment_congr fun j hj => by
    rw [mul_zero, zero_add, elem_t6recon_first free blocks hj, blockElem, mul_zero, zero_add]

theorem residueSeries_segment_t6recon_last (blocks : List Word) :
    residueSeries (segment 128 11 (t6recon free blocks)) =
      residueSeries (segment 128 21 blocks) :=
  residueSeries_segment_congr fun j hj => by
    rw [elem_t6recon_last free blocks hj, blockElem, ← add_assoc]

theorem elemInt_t6recon_interior {blocks : List Word} (h : AllCanonical blocks) {r j : Nat}
    (hr : r < 10) (hj : j < 128) :
    elemInt (t6recon free blocks) (128 * (r + 1) + j) =
      (elemInt blocks (128 * (2 * (r + 1)) + j) + elemInt blocks (128 * (2 * r + 1) + j)) %
        9829 := by
  have hlow : 256 * (r + 1) + j = 128 * (2 * (r + 1)) + j := by ring
  have hhigh : 256 * r + (128 + j) = 128 * (2 * r + 1) + j := by ring
  rw [elemInt, elem_t6recon_interior free blocks hj hr, reduce_toInt _
    (inDomain_add_of_canonical (blockElem_canonical h ..) (blockElem_canonical h ..)),
    blockElem, blockElem, hlow, hhigh, elemInt, elemInt]

theorem residueSeries_segment_t6recon_interior {blocks : List Word} (h : AllCanonical blocks)
    {r : Nat} (hr : r < 10) :
    residueSeries (segment 128 (r + 1) (t6recon free blocks)) =
      residueSeries (segment 128 (2 * (r + 1)) blocks) +
        residueSeries (segment 128 (2 * r + 1) blocks) := by
  refine residueSeries_segment_eq (fun j hj => ?inside) fun j hj => ?beyond
  case inside =>
    rw [map_add, coeff_residueSeries, coeff_residueSeries, elemInt_segment blocks 128 _ hj,
      elemInt_segment blocks 128 _ hj, elemInt_t6recon_interior free h hr hj, ← Int.cast_add]
    exact ZMod.intCast_mod _ 9829
  case beyond =>
    rw [map_add, coeff_residueSeries_segment_of_ge blocks _ hj,
      coeff_residueSeries_segment_of_ge blocks _ hj, add_zero]

/-- On canonical blocks the overlap-add puts block `k` at offset `128k`. -/
theorem residueSeries_t6recon {blocks : List Word} (h : AllCanonical blocks) :
    residueSeries (t6recon free blocks) = ∑ k ∈ Finset.range 11,
      PowerSeries.X ^ (128 * k) * residueSeries (segment 256 k blocks) := by
  have hblock (k : Nat) : PowerSeries.X ^ (128 * k) * residueSeries (segment 256 k blocks) =
      PowerSeries.X ^ (128 * k) * residueSeries (segment 128 (2 * k) blocks) +
        PowerSeries.X ^ (128 * (k + 1)) * residueSeries (segment 128 (2 * k + 1) blocks) := by
    rw [residueSeries_segment_two_mul blocks 128 k]
    ring
  have hinterior : ∀ r ∈ Finset.range 10, PowerSeries.X ^ (128 * (r + 1)) *
        residueSeries (segment 128 (r + 1) (t6recon free blocks)) =
      PowerSeries.X ^ (128 * (r + 1)) * residueSeries (segment 128 (2 * (r + 1)) blocks) +
        PowerSeries.X ^ (128 * (r + 1)) * residueSeries (segment 128 (2 * r + 1) blocks) :=
    fun r hr => by
      rw [residueSeries_segment_t6recon_interior free h (Finset.mem_range.mp hr), mul_add]
  rw [residueSeries_eq_sum_segments (n := 128) (m := 12) (by simp), Finset.sum_range_succ,
    Finset.sum_range_succ', Finset.sum_congr rfl hinterior, residueSeries_segment_t6recon_first,
    residueSeries_segment_t6recon_last]
  simp only [hblock, Finset.sum_add_distrib]
  rw [Finset.sum_range_succ' _ 10, Finset.sum_range_succ _ 10]
  ring

end

/-! ### The multiplier computes the convolution (46_top.md R200, R201) -/

section
variable {f g : List Word} (hf : f.length = 768) (hg : g.length = 768)
include hf hg

/-- The three Toom-6 stages give the product of the operands modulo 9829, whatever the free words of
the stages are. -/
theorem residueSeries_stages (free free' : Nat → Word) :
    residueSeries (t6recon free' (t6interp free (t6eval f g))) =
      residueSeries f * residueSeries g := by
  rw [residueSeries_t6recon free' (allCanonical_t6interp free (allCanonical_t6eval f g)),
    ← sum_X_pow_mul_coeff_blockPoly_mul hf hg]
  exact Finset.sum_congr rfl fun k hk => by
    rw [residueSeries_segment_t6interp_t6eval hf hg free (Finset.mem_range.mp hk)]

theorem elemInt_stages_emod (free free' : Nat → Word) (k : Nat) :
    elemInt (t6recon free' (t6interp free (t6eval f g))) k % 9829 = convCoeff f g k % 9829 :=
  residueSeries_eq_mul_iff.mp (residueSeries_stages hf hg free free') k

theorem elemInt_mul768 (free : Nat → Word) (k : Nat) :
    elemInt (mul768 free f g) k = convCoeff f g k % 9829 := by
  rw [mul768, elemInt_seqFreeze, elemInt_stages_emod hf hg]

end

/-! ### The command `MUL768` (46_top.md R201) -/

theorem wellFormed_mul768 {dst src1 src2 : Addr} :
    (Instr.mul768 dst src1 src2).WellFormed ↔
      dst.toNat + 1536 ≤ 8192 ∧ src1.toNat + 768 ≤ 8192 ∧ src2.toNat + 768 ≤ 8192 := by
  simp [Instr.WellFormed, rangesOk, lenOk, dstRange, srcRanges]

/-- For canonical operands `MUL768` stores the words of the multiplier, computed from the snapshot
of its operands (20_memory.md R49). -/
theorem exec_mul768_word {dst src1 src2 : Addr} (h : (Instr.mul768 dst src1 src2).WellFormed)
    (s : State) :
    ∃ t, exec (.mul768 dst src1 src2) s = .next t ∧
      (AllCanonical (s.memRead src1.toNat 768) → AllCanonical (s.memRead src2.toNat 768) →
        ∀ k < 1536, t.readWord (dst.toNat + k) =
          elem (mul768 s.unspec (s.memRead src1.toNat 768) (s.memRead src2.toNat 768)) k) := by
  refine ⟨_, congrArg Host.Outcome.next (State.guarded_ok h _), fun hf hg k hk => ?_⟩
  rw [if_pos ⟨hf, hg⟩, State.readWord_composite, mul768_length, if_pos (by omega),
    Nat.add_sub_cancel_left]

/-- Settles O50: the words stored are those of the multiplier, the canonical convolution. -/
theorem mul768Multiplies : Obligations.Mul768Multiplies := by
  intro dst src1 src2 s hdst hsrc1 hsrc2
  have hok := wellFormed_mul768.mpr ⟨hdst, hsrc1, hsrc2⟩
  obtain ⟨t, hexec, hword⟩ := exec_mul768_word hok s
  refine ⟨t, hexec, fun hf hg k hk => ?_, exec_frame hok hexec⟩
  rw [hword hf hg k hk, ← elemInt,
    elemInt_mul768 (State.memRead_length ..) (State.memRead_length ..)]

/-! ### The laws of the multiplier (46_top.md R202) -/

/-- The convolution commutes: the term of `i` is the swapped term of `k - i`. -/
theorem convCoeff_comm (f g : List Word) (k : Nat) : convCoeff f g k = convCoeff g f k := by
  rw [convCoeff, ← Finset.sum_range_reflect, convCoeff]
  refine Finset.sum_congr rfl fun i hi => ?_
  have hi := Finset.mem_range.mp hi
  rw [show k + 1 - 1 - i = k - i by omega, show k - (k - i) = i by omega, mul_comm]

/-- Settles O51: inside the destination the two products are equal, outside it nothing changes. -/
theorem mul768Commutes : Obligations.Mul768Commutes := by
  intro dst src1 src2 s hdst hsrc1 hsrc2 hf hg
  obtain ⟨t, hexec, hword, hframe, -⟩ := mul768Multiplies dst src1 src2 s hdst hsrc1 hsrc2
  obtain ⟨t', hexec', hword', hframe', -⟩ := mul768Multiplies dst src2 src1 s hdst hsrc2 hsrc1
  refine ⟨t, t', hexec, hexec', fun a => ?_⟩
  by_cases ha : inRange ⟨dst.toNat, 1536⟩ a
  · obtain ⟨k, rfl⟩ := Nat.exists_eq_add_of_le ha.1
    have hk : k < 1536 := Nat.add_lt_add_iff_left.mp ha.2
    rw [← BitVec.toInt_inj, hword hf hg k hk, hword' hg hf k hk, convCoeff_comm]
  · rw [hframe a ha, hframe' a ha]

/-- Convolution with an impulse shifts and scales the other operand. -/
theorem convCoeff_impulse {f : List Word} {p : Nat} {c : Int}
    (hf : ∀ i, elemInt f i = if i = p then c else 0) (g : List Word) (k : Nat) :
    convCoeff f g k = if p ≤ k then c * elemInt g (k - p) else 0 := by
  calc convCoeff f g k
      = ∑ i ∈ Finset.range (k + 1), if i = p then c * elemInt g (k - i) else 0 :=
        Finset.sum_congr rfl fun i _ => by rw [hf i, ite_mul, zero_mul]
    _ = if p ≤ k then c * elemInt g (k - p) else 0 := by simp

theorem elemInt_memRead_impulse {s : State} {a p : Nat} {m : Word} (hp : p < 768)
    (h : ∀ i < 768, s.readWord (a + i) = if i = p then m else 0) (i : Nat) :
    elemInt (s.memRead a 768) i = if i = p then m.toInt else 0 := by
  obtain hi | hi := lt_or_ge i 768
  · rw [elemInt, State.elem_memRead s a 768 i hi, h i hi, apply_ite BitVec.toInt]
    rfl
  · rw [elemInt_of_ge (by simpa using hi), if_neg (by omega)]

theorem allCanonical_memRead {s : State} {a n : Nat}
    (h : ∀ i < n, Canonical (s.readWord (a + i))) : AllCanonical (s.memRead a n) :=
  (allCanonical_iff _).mpr (List.forall_mem_map.mpr fun i hi => h i (List.mem_range.mp hi))

/-- Settles O52: the convolution with the impulse, whose terms are canonical as they stand. -/
theorem mul768ShiftsByImpulse : Obligations.Mul768ShiftsByImpulse := by
  intro dst src1 src2 s p m hdst hsrc1 hsrc2 hp hm himpulse hg
  have hm_canonical : Canonical m := by obtain rfl | rfl := hm <;> decide
  have hf : AllCanonical (s.memRead src1.toNat 768) := allCanonical_memRead fun i hi => by
    rw [himpulse i hi]
    split
    · exact hm_canonical
    · decide
  obtain ⟨t, hexec, hword, -⟩ := mul768Multiplies dst src1 src2 s hdst hsrc1 hsrc2
  refine ⟨t, hexec, fun k hk => BitVec.eq_of_toInt_eq ?_⟩
  rw [hword hf hg k hk, convCoeff_impulse (elemInt_memRead_impulse hp himpulse)]
  obtain rfl | rfl := hm
  · simp
  · have ⟨hg0, hgq⟩ := elemInt_canonical hg (k - p)
    obtain hbefore | hinside | hafter : k < p ∨ (p ≤ k ∧ k < p + 768) ∨ p + 768 ≤ k := by omega
    · rw [if_neg (by omega), if_neg (by omega)]
      rfl
    · rw [if_pos hinside.1, if_pos ⟨rfl, hinside⟩,
        ← State.elem_memRead s src2.toNat 768 (k - p) (by omega), ← elemInt,
        show (1 : Word).toInt = 1 by decide, one_mul, Int.emod_eq_of_lt hg0 (by omega)]
    · rw [if_pos (by omega), if_neg (by omega), elemInt_of_ge (by simp; omega), mul_zero]
      rfl

/-! ### The four stages through PMEM (46_top.md R201) -/

/-- A range read back is a sequence when its words are the elements of the sequence. -/
theorem memRead_eq_of_words {t : State} {a n : Nat} {l : List Word} (hlen : l.length = n)
    (h : ∀ j < n, t.readWord (a + j) = elem l j) : t.memRead a n = l := by
  refine List.ext_getElem (by simp [hlen]) fun j hj hjl => ?_
  rw [← elem_of_lt hj, ← elem_of_lt hjl, State.elem_memRead t a n j (by omega), h j (by omega)]

/-- `T6EVAL` leaves the evaluation results in its destination. -/
theorem exec_t6eval_memRead {dst src1 src2 : Addr} {s : State}
    (h : (Instr.t6eval dst src1 src2).WellFormed) (hf : AllCanonical (s.memRead src1.toNat 768))
    (hg : AllCanonical (s.memRead src2.toNat 768)) :
    ∃ t, exec (.t6eval dst src1 src2) s = .next t ∧ t.memRead dst.toNat 2816 =
      t6eval (s.memRead src1.toNat 768) (s.memRead src2.toNat 768) := by
  obtain ⟨t, hexec, hword⟩ := exec_t6eval_word h s
  exact ⟨t, hexec, memRead_eq_of_words
    (t6eval_length (State.memRead_length ..) (State.memRead_length ..)) (hword hf hg)⟩

/-- `T6INTERP` leaves the coefficient blocks in its destination, which may be its source. -/
theorem exec_t6interp_memRead {dst src1 : Addr} (h : (Instr.t6interp dst src1).WellFormed)
    (s : State) : ∃ t, exec (.t6interp dst src1) s = .next t ∧
      t.memRead dst.toNat 2816 = t6interp s.unspec (s.memRead src1.toNat 2816) := by
  obtain ⟨t, hexec, hword⟩ := exec_t6interp_word h s
  refine ⟨t, hexec, memRead_eq_of_words (t6interp_length ..) fun j hj => ?_⟩
  have hblock := hword (j / 256) (by omega) (j % 256) (Nat.mod_lt _ (by decide))
  rwa [add_assoc, Nat.div_add_mod] at hblock

/-- Settles O53: each stage reads the range the stage before it left, so `VFRZ` finds words that are
the convolution modulo 9829 and, being canonical, inside the domain of `reduce`. -/
theorem stagesEqualMul768 : Obligations.StagesEqualMul768 := by
  intro dst tmp src1 src2 s hdst htmp hsrc1 hsrc2 hf hg
  have hlen : (1536 : Len).toNat = 1536 := by decide
  obtain ⟨t, hexec, hproduct, -⟩ := mul768Multiplies dst src1 src2 s hdst hsrc1 hsrc2
  obtain ⟨t1, hexec1, heval⟩ :=
    exec_t6eval_memRead (wellFormed_t6eval.mpr ⟨htmp, hsrc1, hsrc2⟩) hf hg
  obtain ⟨t2, hexec2, hinterp⟩ := exec_t6interp_memRead (wellFormed_t6interp.mpr ⟨htmp, htmp⟩) t1
  obtain ⟨t3, hexec3, hrecon⟩ := exec_t6recon_word (wellFormed_t6recon.mpr ⟨hdst, htmp⟩) t2
  obtain ⟨t4, hexec4, hfrozen⟩ := exec_vfrz_word
    (wellFormed_vfrz.mpr ⟨by rw [hlen]; decide, by rwa [hlen]⟩ :
      (Instr.vfrz dst 1536).WellFormed) t3
  refine ⟨t, t1, t2, t3, t4, hexec, hexec1, hexec2, hexec3, hexec4, fun k hk => ?_⟩
  rw [hinterp, heval] at hrecon
  obtain ⟨h0, hq⟩ := canonical_elem (allCanonical_t6recon t2.unspec
    (allCanonical_t6interp t1.unspec (allCanonical_t6eval (s.memRead src1.toNat 768)
      (s.memRead src2.toNat 768)))) k
  rw [← BitVec.toInt_inj, hproduct hf hg k hk, hfrozen k (by rwa [hlen]), hrecon k hk,
    reduce_toInt _ (inDomain_of_canonical h0 hq), ← elemInt,
    elemInt_stages_emod (State.memRead_length ..) (State.memRead_length ..)]

end Sys2Proof

/-! Errors (60_exceptions.md): every step completes (R210), error entry and error return (R213,
R215), and that `ERR` is sticky and blocks nothing (R216). -/

namespace Sys2Proof.Machine

/-! ### The state with another `STATUS` word -/

/-- The state with `v` in `STATUS`, everything else as it is. -/
def State.withStatus (s : State) (v : Word) : State := { s with status := v }

theorem State.withStatus_drawn (s : State) (v : Word) :
    (s.withStatus v).drawn = s.drawn.withStatus v := rfl

theorem State.withStatus_writeWord (s : State) (v : Word) (a : Nat) (w : Word) :
    (s.withStatus v).writeWord a w = (s.writeWord a w).withStatus v := rfl

theorem State.withStatus_memWrite (s : State) (v : Word) (a : Nat) (ws : List Word) :
    (s.withStatus v).memWrite a ws = (s.memWrite a ws).withStatus v := by
  induction ws generalizing s a with
  | nil => rfl
  | cons w ws ih => rw [State.memWrite, State.withStatus_writeWord, ih, State.memWrite]

theorem State.withStatus_composite (s : State) (v : Word) (dst : Addr) (result : List Word) :
    (s.withStatus v).composite dst result = (s.composite dst result).withStatus v := by
  rw [State.composite, State.withStatus_memWrite, State.withStatus_drawn, State.composite]

/-- Elements computed without `STATUS` are the same words whatever it holds. -/
theorem State.withStatus_elementwise (s : State) (v : Word) (dst n : Nat)
    {val : Nat → State → Word} (hval : ∀ i t, val i (t.withStatus v) = val i t) :
    (s.withStatus v).elementwise dst n val = (s.elementwise dst n val).withStatus v := by
  induction n with
  | zero => rfl
  | succ n ih =>
    rw [State.elementwise_succ, ih, hval, State.withStatus_writeWord, State.elementwise_succ]

/-- No snapshot and no free word depends on `STATUS`. -/
theorem State.withStatus_karatsuba (s : State) (v : Word) (level : Nat) (dst src1 src2 : Addr) :
    (s.withStatus v).karatsuba level dst src1 src2 =
      (s.karatsuba level dst src1 src2).withStatus v :=
  State.withStatus_composite ..

end Sys2Proof.Machine

namespace Sys2Proof

open Sys2Proof.Machine

/-! ### The effect of a command does not depend on `STATUS` -/

/-- The effects of one command from two states that differ in `STATUS` alone differ in `STATUS`
alone (60_exceptions.md R216). -/
theorem exec_withStatus (i : Instr) (s : State) (v : Word) :
    ∃ e e', exec i s = .next (s.guarded i e) ∧
      exec i (s.withStatus v) = .next ((s.withStatus v).guarded i e') ∧ e' = e.withStatus v := by
  cases i with
  | frz dst src1 =>
    exact ⟨_, _, rfl, rfl,
      congrArg State.drawn (s.withStatus_elementwise v dst.toNat 1 fun _ _ => rfl)⟩
  | vfrz dst len =>
    exact ⟨_, _, rfl, rfl,
      congrArg State.drawn (s.withStatus_elementwise v dst.toNat len.toNat fun _ _ => rfl)⟩
  | vzero dst len =>
    exact ⟨_, _, rfl, rfl, s.withStatus_elementwise v dst.toNat len.toNat fun _ _ => rfl⟩
  | vcopy dst src1 len =>
    exact ⟨_, _, rfl, rfl, s.withStatus_elementwise v dst.toNat len.toNat fun _ _ => rfl⟩
  | vadd dst src1 src2 len =>
    exact ⟨_, _, rfl, rfl,
      congrArg State.drawn (s.withStatus_elementwise v dst.toNat len.toNat fun _ _ => rfl)⟩
  | vacc dst src1 len =>
    exact ⟨_, _, rfl, rfl, s.withStatus_elementwise v dst.toNat len.toNat fun _ _ => rfl⟩
  | vsmul dst src1 imm len =>
    exact ⟨_, _, rfl, rfl,
      congrArg State.drawn (s.withStatus_elementwise v dst.toNat len.toNat fun _ _ => rfl)⟩
  | conv4 dst src1 src2 => exact ⟨_, _, rfl, rfl, s.withStatus_composite v dst _⟩
  | kmul8 dst src1 src2 => exact ⟨_, _, rfl, rfl, s.withStatus_karatsuba v 1 dst src1 src2⟩
  | kmul16 dst src1 src2 => exact ⟨_, _, rfl, rfl, s.withStatus_karatsuba v 2 dst src1 src2⟩
  | kmul32 dst src1 src2 => exact ⟨_, _, rfl, rfl, s.withStatus_karatsuba v 3 dst src1 src2⟩
  | kmul64 dst src1 src2 => exact ⟨_, _, rfl, rfl, s.withStatus_karatsuba v 4 dst src1 src2⟩
  | kmul128 dst src1 src2 => exact ⟨_, _, rfl, rfl, s.withStatus_karatsuba v 5 dst src1 src2⟩
  | t6eval dst src1 src2 => exact ⟨_, _, rfl, rfl, s.withStatus_composite v dst _⟩
  | t6interp dst src1 => exact ⟨_, _, rfl, rfl, s.withStatus_composite v dst _⟩
  | t6recon dst src1 => exact ⟨_, _, rfl, rfl, s.withStatus_composite v dst _⟩
  | mul768 dst src1 src2 => exact ⟨_, _, rfl, rfl, s.withStatus_composite v dst _⟩

/-- Settles O20: with legal ranges both states run the command's effect, and only the command's
destination changes. -/
theorem errorsAreSticky : Obligations.ErrorsAreSticky := by
  intro i s v hok
  obtain ⟨t, _, hexec, hexec', rfl⟩ := exec_withStatus i s v
  rw [State.guarded_ok hok] at hexec hexec'
  obtain ⟨u, hu, hstatus⟩ := exec_keeps_status hok s
  obtain rfl : t = u := by simpa [hexec] using hu
  exact ⟨t, hexec, hstatus, hexec'⟩

/-! ### Every step completes (60_exceptions.md R210) -/

/-- Every transaction completes, error entry being one way of completing (R213). -/
theorem perform_completes (x : Transaction) (s : State) : ∃ t, perform x s = .next t := by
  cases x with
  | issue cmd =>
    cases hdec : decode cmd with
    | ok i =>
      obtain ⟨e, hexec, -⟩ := exec_eq_guarded i s
      exact ⟨_, (issue_of_decode_ok hdec s).trans hexec⟩
    | error e => exact ⟨_, issue_of_decode_error hdec s⟩
  | reset => exact ⟨_, rfl⟩
  | pmemWrite a v => exact ⟨_, rfl⟩
  | pmemRead a => exact ⟨_, rfl⟩
  | statusRead => exact ⟨_, rfl⟩
  | statusClear => exact ⟨_, rfl⟩

theorem step_completes (s : State) : ∃ t, step s = .next t := by
  cases hhost : s.host with
  | nil => exact ⟨s, step_idle hhost⟩
  | cons x rest =>
    rw [step_perform hhost]
    exact perform_completes x _

/-- A run of one step more goes on from the state the first step leaves. -/
theorem run_succ_of_step {s t : State} (h : step s = .next t) (n : Nat) :
    core.run (n + 1) s = core.run n t := by
  have hcore : core.step s = .next t := h
  simp only [Host.Core.run, hcore]

/-- Settles O16, by induction on the number of steps. -/
theorem everyRunGoesOn : Obligations.EveryRunGoesOn := by
  intro s n
  induction n generalizing s with
  | zero => exact ⟨s, rfl⟩
  | succ n ih =>
    obtain ⟨t, hstep⟩ := step_completes s
    rw [run_succ_of_step hstep]
    exact ih t

/-! ### Error entry (60_exceptions.md R213) -/

theorem errOf_raise (s : State) (e : CmdError) : errOf (s.raise e).status = true := by simp

theorem ecodeOf_raise_of_no_err {s : State} (h : errOf s.status = false) (e : CmdError) :
    ecodeOf (s.raise e).status = codeOf e := by simp [h]

theorem ecodeOf_raise_of_err {s : State} (h : errOf s.status = true) (e : CmdError) :
    ecodeOf (s.raise e).status = ecodeOf s.status := by simp [h]

/-- Settles O19, field by field. -/
theorem errorEntryTouchesOnlyStatus : Obligations.ErrorEntryTouchesOnlyStatus :=
  ⟨rfl, rfl, rfl,
    fun s e => ⟨errOf_raise s e, fun h => ecodeOf_raise_of_no_err h e,
      fun h => ecodeOf_raise_of_err h e, State.raise_pmem .., State.raise_resets ..,
      State.raise_draws .., State.raise_host .., State.raise_reply ..⟩,
    fun _ _ s hdec => issue_of_decode_error hdec s⟩

/-- With `ERR` set, error entry rewrites a legal `STATUS` word with its own fields (R216). -/
theorem raise_keeps_status_of_err {s : State} (hlegal : StatusLegal s.status)
    (herr : errOf s.status = true) (e : CmdError) : (s.raise e).status = s.status := by
  obtain ⟨hpacked, -⟩ := hlegal
  rw [State.raise_status, if_pos herr, ← herr]
  exact hpacked.symm

/-- Settles O21: from a legal word with `ERR` set nothing changes; after a first error the fields
are those just packed. -/
theorem secondErrorKeepsFirstCode : Obligations.SecondErrorKeepsFirstCode := by
  intro s e e'
  refine ⟨fun hlegal herr => raise_keeps_status_of_err hlegal herr e, ?_⟩
  rw [State.raise_status (s.raise e), if_pos (errOf_raise s e), State.raise_status s,
    ecodeOf_packStatus]

/-! ### Error return (60_exceptions.md R215) -/

/-- The step of `status_clear()`. -/
theorem step_statusClear {s : State} {rest : List Transaction}
    (h : s.host = .statusClear :: rest) :
    step s = .next (s.begin rest).statusClear := step_perform h

theorem errOf_zero : errOf 0 = false := rfl

theorem ecodeOf_zero : ecodeOf 0 = 0 := rfl

/-- Settles O12: the fields of the word 0, and nothing else of the state changes. -/
theorem statusClearClearsErrors : Obligations.StatusClearClearsErrors := by
  intro s rest hhost
  exact ⟨_, step_statusClear hhost, State.statusClear_status .., errOf_zero, ecodeOf_zero,
    fun b => by simp, by simp, by simp, by simp⟩

/-- With `ERR` set in a legal word, only the two transactions that set `STATUS` to 0 change it
(R215, R216). -/
theorem perform_keeps_status_of_err {x : Transaction} {s t : State}
    (hlegal : StatusLegal s.status) (herr : errOf s.status = true) (h : perform x s = .next t) :
    t.status = s.status ∨ x = .statusClear ∨ x = .reset := by
  cases x with
  | issue cmd =>
    obtain ⟨i, -, -, hstores⟩ | ⟨e, rfl⟩ := issue_cases h
    · exact .inl hstores.status_eq
    · exact .inl (raise_keeps_status_of_err hlegal herr e)
  | pmemWrite a v =>
    cases h
    exact .inl rfl
  | pmemRead a =>
    cases h
    exact .inl rfl
  | statusRead =>
    cases h
    exact .inl rfl
  | statusClear => exact .inr (.inl rfl)
  | reset => exact .inr (.inr rfl)

/-- Settles O22: an idle step changes nothing, and a transaction that changes `STATUS` is one of the
two. -/
theorem onlyClearOrResetClearsErrors : Obligations.OnlyClearOrResetClearsErrors := by
  intro s t hlegal herr hstep
  cases hhost : s.host with
  | nil =>
    rw [step_idle hhost] at hstep
    cases hstep
    exact .inl rfl
  | cons x rest =>
    rw [step_perform hhost] at hstep
    obtain hkeep | rfl | rfl := perform_keeps_status_of_err (s := s.begin rest) hlegal herr hstep
    · exact .inl hkeep
    · exact .inr ⟨rest, .inl rfl⟩
    · exact .inr ⟨rest, .inr rfl⟩

end Sys2Proof

/-! Reset (70_reset_and_hazards.md): the `reset()` transaction (R230). -/

namespace Sys2Proof.Machine

/-- `reset()` leaves no cell listed, so every read answers the free value of the new reset number,
whatever was stored before (10_state.md R31). -/
@[simp] theorem State.readWord_resetUnit (s : State) (a : Nat) :
    s.resetUnit.readWord a = Config.resetWord (s.resets + 1) a := by
  rw [State.readWord, State.resetUnit_pmem, State.resetUnit_resets, getCell_nil, Option.getD_none]

end Sys2Proof.Machine

namespace Sys2Proof

open Sys2Proof.Machine

/-- The step of `reset()`. -/
theorem step_reset {s : State} {rest : List Transaction} (h : s.host = .reset :: rest) :
    step s = .next (s.begin rest).resetUnit := step_perform h

/-- Settles O13: the laws of `resetUnit`, field by field, at the state that has taken the
transaction off the list; taking it off leaves the reset number as it was. -/
theorem resetTransactionClearsAll : Obligations.ResetTransactionClearsAll := by
  intro s rest hhost
  refine ⟨(s.begin rest).resetUnit, step_reset hhost, State.resetUnit_status _,
    State.resetUnit_pmem _, ?_, fun a => ?_, ?_⟩
  · rw [State.resetUnit_resets, State.begin_resets]
  · rw [State.readWord_resetUnit, State.begin_resets]
  · rw [State.resetUnit_host, State.begin_host]

end Sys2Proof
